-- ==== Sys2Proof/Word.lean ====
section
/-! DEFINITION. The widths of the values of this hardware (spec/00_scope.md R5, R6; spec/30_encoding.md R70, R81).
Every value is an unsigned bit vector whose bit 0 is the least significant (R7). -/

namespace Sys2Proof

/-- KEY_W = 64: a key value (R5, R73). -/
abbrev KeyValue := BitVec 64

/-- BLOCK_W = 64: a block (R5, R74). -/
abbrev Block := BitVec 64

/-- HALF_W = 32: L or R, and the substitution output (R5, R81). -/
abbrev Half := BitVec 32

/-- HALF_KEY_W = 28: C or D (R5). -/
abbrev HalfKey := BitVec 28

/-- The 56-bit value C ‖ D, the input of PC2 (R81). -/
abbrev KeyHalves := BitVec 56

/-- SUBKEY_W = EXP_W = 48: a round subkey, an expanded half, and their exclusive or (R5, R81). -/
abbrev Subkey := BitVec 48

/-- SBOX_IN_W = 6: one group, the address of a substitution table (R5, R81). -/
abbrev Group := BitVec 6

/-- SBOX_OUT_W = 4: one substitution output (R5, R81). -/
abbrev Nibble := BitVec 4

/-- The operation code `cmd_op` (R70, R72). -/
abbrev OpCode := BitVec 2

/-- CMD_W = 66: a command word `cmd_op ‖ cmd_data` (R6, R70). -/
abbrev CommandWord := BitVec 66

/-- The index of a schedule-store word, 0..15, all legal (R50, R55). -/
abbrev StoreIndex := Fin 16

end Sys2Proof
end

