-- ==== Sys2Proof/Config.lean ====
section
/-! DEFINITION. What an implementation fixes, and the free values. Each is an opaque constant: nothing in Lean can
evaluate it, so no statement can rest on its value. -/

namespace Sys2Proof

/-- How fast an implementation works through the sixteen rounds of one kind of command: it "may take more than one clock
edge per micro-step, or fewer edges by unrolling rounds" (R241). Edge 0 is the edge that accepts the command
(DESIGN CHOICE, log entry 8). -/
structure Pace where
  /-- The edge at which the command completes: the latency less one. -/
  last : Nat
  /-- How many rounds are performed at edge 0, at edge 1 and so on, before edge `last`; what is left is performed there. -/
  rounds : List Nat
  deriving DecidableEq, Repr, Inhabited

/-- The pace of LOADKEY in this implementation, a parameter left open (R6, R241; DESIGN CHOICE, log entry 8). -/
opaque Config.keyPace : Pace

/-- The pace of ENCRYPT and DECRYPT in this implementation, a parameter left open (R6, R240, R241; DESIGN CHOICE, log
entry 8). -/
opaque Config.blockPace : Pace

/-- LAT_KEY, an open parameter, a natural number of at least 1 (R6, R241). -/
def Config.latKey : Nat := Config.keyPace.last + 1

/-- LAT_BLK, an open parameter, a natural number of at least 1 (R6, R241). -/
def Config.latBlk : Nat := Config.blockPace.last + 1

/-- N_INSTANCES less one. -/
opaque Config.instancesLessOne : Nat

/-- N_INSTANCES, an open parameter, a natural number of at least 1 (R6, R211; DESIGN CHOICE, log entry 11). -/
def Config.nInstances : Nat := Config.instancesLessOne + 1

/-- FREE VALUE: what `sk_data` shows in cycle `clock` at index `addr` while SV = 0 (R52, U2; DESIGN CHOICE, log entry 5). -/
opaque Config.skDraw (clock : Nat) (addr : BitVec 4) : Subkey

/-- FREE VALUE: what `rsp_data` shows in cycle `clock` while DV = 0 (R28, U3; DESIGN CHOICE, log entry 6). -/
opaque Config.rspDraw (clock : Nat) : Block

/-- The registers of the block (R20). -/
inductive RegisterName where
  | key
  | k (i : StoreIndex)
  | sv
  | busy
  | dout
  | dv
  | dir
  | c
  | d
  | l
  | r
  | rnd
  | ph
  deriving DecidableEq, Repr

/-- The width of each register (R20). -/
def RegisterName.width : RegisterName → Nat
  | .key => 64
  | .k _ => 48
  | .sv => 1
  | .busy => 1
  | .dout => 64
  | .dv => 1
  | .dir => 1
  | .c => 28
  | .d => 28
  | .l => 32
  | .r => 32
  | .rnd => 5
  | .ph => 2

/-- FREE VALUE: what each register holds at power-up, before the first reset (R220, U1; DESIGN CHOICE, log entry 14). -/
opaque Config.powerUpDraw (name : RegisterName) : BitVec name.width

/-- FREE VALUE: the edge count of `Pace` at power-up (DESIGN CHOICE, log entry 14). -/
opaque Config.powerUpAge : Nat

/-- FREE VALUE: what each register holds after an edge at cycle `clock` for which no rule gives the block a micro-step
(R33, R34, U1; DESIGN CHOICE, log entry 7). -/
opaque Config.noRuleDraw (clock : Nat) (name : RegisterName) : BitVec name.width

/-- FREE VALUE: the edge count of `Pace` after such an edge (DESIGN CHOICE, log entry 7). -/
opaque Config.noRuleAge (clock : Nat) : Nat

end Sys2Proof
end

