-- ==== Sys2Proof/Syntax.lean ====
section
/-! DEFINITION. The commands, one constructor per row of spec/opcode_table.json (spec/30_encoding.md R72). -/

namespace Sys2Proof

/-- The four commands (R72); the code map is complete (R75). Every operand is a whole 64-bit value (R73, R74). -/
inductive Instr where
  /-- NOP, code 00. Its operand field is ignored in full (R155, R75); it is kept so that no bit of a command word is
  dropped between decoding and encoding (DESIGN CHOICE, log entry 12). -/
  | nop (data : BitVec 64)
  /-- LOADKEY, code 01 (R120). -/
  | loadkey (key : KeyValue)
  /-- ENCRYPT, code 10 (R150). -/
  | encrypt (block : Block)
  /-- DECRYPT, code 11 (R151). -/
  | decrypt (block : Block)
  deriving DecidableEq, Repr

end Sys2Proof
end

