-- ==== Sys2Proof/WellFormed.lean ====
section
/-! DEFINITION. Which commands and which raw words are well formed. The block has no illegal encoding and no reserved
operand value (spec/30_encoding.md R75), so every command is well formed; what can be ill formed is a raw number that is
no 66-bit word (R76). The check on a program line is `Machine.Line.wellFormed`. -/

namespace Sys2Proof

/-- Every operand of every command is legal: "any 64-bit value is a legal key or block" (R75). -/
def Instr.wellFormed : Instr → Bool
  | .nop _ => true
  | .loadkey _ => true
  | .encrypt _ => true
  | .decrypt _ => true

/-- A raw number is a command word when it has no bit above bit 65: every command is 66 bits (R76, R70). -/
def isCommandWord (w : Nat) : Bool := w < 2 ^ 66

end Sys2Proof
end

