-- ==== Sys2Proof/Decode.lean ====
section
/-! DEFINITION. Decoding and encoding of the 66-bit command word `cmd_op ‖ cmd_data` (spec/30_encoding.md R70, R72, R76). -/

namespace Sys2Proof

/-- Why a raw number is no command. There is one reason: no 66-bit word is illegal (R75). -/
inductive DecodeReject where
  /-- The number has a bit above bit 65, so it is not a word of the command port (R76). -/
  | widerThanCommandPort
  deriving DecidableEq, Repr

/-- Bits 65:64 of a command word, `cmd_op` (R70). -/
def opField (w : CommandWord) : OpCode := w.extractLsb' 64 2

/-- Bits 63:0 of a command word, `cmd_data` (R70). -/
def dataField (w : CommandWord) : BitVec 64 := w.extractLsb' 0 64

/-- The operation code map (R72): decoding looks at bits 65:64 only (R76) and every code is defined (R75). -/
def decode (w : CommandWord) : Instr :=
  match opField w with
  | 0b00 => .nop (dataField w)
  | 0b01 => .loadkey (dataField w)
  | 0b10 => .encrypt (dataField w)
  | 0b11 => .decrypt (dataField w)

/-- Decoding of a raw number: total, and it rejects by name what is no command word. -/
def decodeRaw (w : Nat) : Except DecodeReject Instr :=
  if isCommandWord w then .ok (decode (BitVec.ofNat 66 w)) else .error .widerThanCommandPort

/-- The instruction read from a table word. A command is one word of 66 wires, numbered as the table numbers it; the
bits from `nbits` up are 0, so the number `w` is the whole word (DESIGN CHOICE, log entry 9). -/
def decodeTableWord (nbits w : Nat) : Option Instr :=
  match decodeRaw (w % 2 ^ nbits) with
  | .ok i => some i
  | .error _ => none

/-- The operation code of a command (R72). -/
def Instr.op : Instr → OpCode
  | .nop _ => 0b00
  | .loadkey _ => 0b01
  | .encrypt _ => 0b10
  | .decrypt _ => 0b11

/-- The operand field of a command (R70). -/
def Instr.data : Instr → BitVec 64
  | .nop x => x
  | .loadkey x => x
  | .encrypt x => x
  | .decrypt x => x

/-- The command word `cmd_op ‖ cmd_data` of a command (R70, R72). -/
def encode (i : Instr) : CommandWord := i.op ++ i.data

end Sys2Proof
end

