-- ==== Sys2Proof/Machine/State.lean ====
section
/-! DEFINITION. The complete state of one DESCORE instance (spec/10_state.md R20), what the host outside is about to do
at its ports (spec/30_encoding.md R71, R77), the state after reset (R39), and the reasons a step can stop. -/

namespace Sys2Proof.Machine

/-- The direction of a block command, held in DIR: 0 Encrypt, 1 Decrypt (R24). -/
inductive Direction where
  | encrypt
  | decrypt
  deriving DecidableEq, Repr

/-- The direction of a 1-bit value of DIR (R24). -/
def Direction.ofBit : BitVec 1 → Direction
  | 0 => .encrypt
  | 1 => .decrypt

/-- DIR as the 1-bit value the spec gives it (R24). -/
def Direction.bit : Direction → BitVec 1
  | .encrypt => 0
  | .decrypt => 1

/-- The phase PH: three values on 2 bits. The fourth code "is never reached" (R34) by a block that has been reset; before
the first reset PH is unspecified and may hold it (R220, U1). -/
inductive Phase where
  /-- no command in progress -/
  | idle
  /-- a LOADKEY is in progress -/
  | ks
  /-- an ENCRYPT or DECRYPT is in progress -/
  | bt
  /-- the fourth code; no rule gives it a micro-step -/
  | code3
  deriving DecidableEq, Repr

/-- The phase of a 2-bit value of PH (R34). -/
def Phase.ofCode : BitVec 2 → Phase
  | 0 => .idle
  | 1 => .ks
  | 2 => .bt
  | 3 => .code3

/-- PH as the 2-bit value the spec gives it (R34). -/
def Phase.code : Phase → BitVec 2
  | .idle => 0
  | .ks => 1
  | .bt => 2
  | .code3 => 3

/-- The values of the block's input ports in one clock cycle (R71). -/
structure Pins where
  /-- `rst` (R220) -/
  rst : Bool
  /-- `cmd_valid` -/
  cmdValid : Bool
  /-- `cmd_op` (R72) -/
  cmdOp : OpCode
  /-- `cmd_data` (R73, R74) -/
  cmdData : BitVec 64
  /-- `sk_addr` (R79) -/
  skAddr : BitVec 4
  deriving DecidableEq, Repr

/-- One thing the host does, at one of the two levels of description (R14; DESIGN CHOICE, log entries 2 and 3). -/
inductive HostEvent where
  /-- Sequencer level: one rising clock edge with these values at the input ports. -/
  | edge (pins : Pins)
  /-- Transaction level: this command word is presented until it is accepted, and nothing else is presented until it is
  complete (R77). -/
  | command (word : CommandWord)
  deriving DecidableEq, Repr

/-- Every register of R20, under its name in lower case, then the model's own five fields. -/
structure State where
  /-- KEY (R21) -/
  key : KeyValue
  /-- K[0..15], the schedule store (R22) -/
  k : Vector Subkey 16
  /-- SV, schedule valid (R26) -/
  sv : Bool
  /-- BUSY (R27) -/
  busy : Bool
  /-- DOUT (R23) -/
  dout : Block
  /-- DV, data valid (R28) -/
  dv : Bool
  /-- DIR (R24) -/
  dir : Direction
  /-- C (R29) -/
  c : HalfKey
  /-- D (R29) -/
  d : HalfKey
  /-- L (R30) -/
  l : Half
  /-- R (R30) -/
  r : Half
  /-- RND, 5 bits, legal values 0..16 (R33) -/
  rnd : BitVec 5
  /-- PH (R34) -/
  ph : Phase
  /-- The implementation's pace for LOADKEY (R6, R241; log entry 8). No step changes it. -/
  keyPace : Pace
  /-- The implementation's pace for ENCRYPT and DECRYPT (R6, R241; log entry 8). No step changes it. -/
  blockPace : Pace
  /-- The model's own: while a command is in progress, how many edges have passed since the edge that accepted it
  (log entry 8). -/
  age : Nat
  /-- The model's own: how many clock edges have passed, the index of the free values (log entry 4). -/
  clock : Nat
  /-- The model's own: what the host does next, first event first; after the last one it presents nothing (log entry 3). -/
  host : List HostEvent
  deriving DecidableEq, Repr

/-- The machine after its first reset (R220, R223). SV, BUSY, DV, PH and RND have the values of R39. Every other register
is unspecified there; the value 0 (Encrypt for DIR) is the model's (DESIGN CHOICE, unsafe, log entry 1). -/
def State.reset : State where
  key := 0
  k := Vector.replicate 16 0
  sv := false
  busy := false
  dout := 0
  dv := false
  dir := .encrypt
  c := 0
  d := 0
  l := 0
  r := 0
  rnd := 0
  ph := .idle
  keyPace := Config.keyPace
  blockPace := Config.blockPace
  age := 0
  clock := 0
  host := []

/-- `s` with every register of R20 at the value that `draw` gives it. -/
def State.withRegisters (draw : (name : RegisterName) → BitVec name.width) (s : State) : State :=
  { s with
    key := draw .key
    k := Vector.ofFn fun i => draw (.k i)
    sv := (draw .sv).getLsbD 0
    busy := (draw .busy).getLsbD 0
    dout := draw .dout
    dv := (draw .dv).getLsbD 0
    dir := Direction.ofBit (draw .dir)
    c := draw .c
    d := draw .d
    l := draw .l
    r := draw .r
    rnd := draw .rnd
    ph := Phase.ofCode (draw .ph) }

/-- The machine at power-up, before its first reset: every register, the flags included, holds a free value
(R220, U1; log entry 14). -/
def State.powerUp : State := { State.reset.withRegisters Config.powerUpDraw with age := Config.powerUpAge }

/-- The hardware has no fault: "A model's step function for an accepted command returns a next state and never a fault"
(R200). So there is no constructor, and no step can stop with one. -/
inductive Fault where
  deriving DecidableEq, Repr

/-- Refusals. -/
inductive Refusal where
  /-- Raised by an arm of `exec` whose instruction has no meaning yet; no arm is left that does. Safe. -/
  | notModelled (mnemonic : String)
  deriving DecidableEq, Repr

/-- The outcome of a step. -/
abbrev Result := Host.Outcome State Fault Refusal

end Sys2Proof.Machine
end

