-- ==== Sys2Proof/Machine/Flags.lean ====
section
/-! DEFINITION. The flags SV, BUSY, DV and the read-only STATUS made of them (spec/10_state.md R25 to R28). There is no
condition code and no flag depends on data (R36): the flags change at acceptance, at completion and at reset only. -/

namespace Sys2Proof.Machine

/-- STATUS: BUSY at bit 2, SV at bit 1, DV at bit 0 (R25). -/
def statusWord (s : State) : BitVec 3 := BitVec.ofBool s.busy ++ BitVec.ofBool s.sv ++ BitVec.ofBool s.dv

/-- Acceptance of a LOADKEY: SV is cleared, BUSY set (R26, R27). -/
def flagsKeyAccepted (s : State) : State := { s with sv := false, busy := true }

/-- Completion of a LOADKEY: SV is set, BUSY cleared (R26, R27). -/
def flagsKeyDone (s : State) : State := { s with sv := true, busy := false }

/-- Acceptance of an ENCRYPT or DECRYPT: DV is cleared, BUSY set (R28, R27). -/
def flagsBlockAccepted (s : State) : State := { s with dv := false, busy := true }

/-- Completion of an ENCRYPT or DECRYPT: DV is set, BUSY cleared (R28, R27). -/
def flagsBlockDone (s : State) : State := { s with dv := true, busy := false }

/-- Reset: SV, BUSY and DV are cleared (R26, R27, R28, R220). -/
def flagsReset (s : State) : State := { s with sv := false, busy := false, dv := false }

end Sys2Proof.Machine
end

