-- ==== Sys2Proof/Machine/Ops.lean ====
section
/-! DEFINITION. The named operations on the schedule store, the sequencer registers and the clock that every command is
built from; the reset step; the acceptance condition. The hardware takes no exception (spec/60_exceptions.md R200, R204,
R205), so there is no exception entry and no return; the reset step is the one thing that abandons a command. -/

namespace Sys2Proof.Machine

/-- `K[i]`: a read of schedule-store word i, without side effect (R13, R51). -/
def readK (s : State) (i : StoreIndex) : Subkey := s.k[i]

/-- `K[i] <- w`: a write of schedule-store word i, all 48 bits at once (R13, R51, R56). -/
def writeK (s : State) (i : StoreIndex) (w : Subkey) : State := { s with k := s.k.set i w }

/-- The schedule-store index on a 4-bit port (R50, R55). -/
def storeIndex (addr : BitVec 4) : StoreIndex := ⟨addr.toNat, addr.isLt⟩

/-- `PH <- p`, `RND <- v` (R32 to R34). -/
def setSequencer (p : Phase) (v : BitVec 5) (s : State) : State := { s with ph := p, rnd := v }

/-- `n` clock edges pass. The clock is the model's own field (log entry 4). -/
def passEdges (n : Nat) (s : State) : State := { s with clock := s.clock + n }

/-- An edge has passed for the command in progress, if there is one; the count is the model's own (log entry 8). -/
def tick (s : State) : State := { s with age := if s.ph = .idle then s.age else s.age + 1 }

/-- The edge that accepts a command is edge 0 of its pace (log entry 8). -/
def startPace (s : State) : State := { s with age := 0 }

/-- The registers after an edge for which no rule gives the block a micro-step: every one holds a free value
(R33, R34, U1; log entry 7). -/
def noRule (s : State) : State :=
  { s.withRegisters (Config.noRuleDraw s.clock) with age := Config.noRuleAge s.clock }

/-- The reset step: `SV <- 0; BUSY <- 0; DV <- 0; PH <- IDLE; RND <- 0`, and no other register is written (R220, R221). -/
def resetStep (s : State) : State := setSequencer .idle 0 (flagsReset s)

/-- `cmd_ready`: BUSY = 0 and (`cmd_op[1]` = 0 or SV = 1) (R78). -/
def cmdReady (op : OpCode) (s : State) : Bool := !s.busy && (!op.getLsbD 1 || s.sv)

/-- The 5-bit RND value for a micro-step number. -/
def rndOf (n : Nat) : BitVec 5 := BitVec.ofNat 5 n

/-- What the host does next is dropped from the front of its list. -/
def popHost (s : State) : State := { s with host := s.host.tail }

/-- The state in which a presented command is run: a command that is ready is taken from the host's list, and one that is
not ready stays presented (R77, R203). -/
def takePresented (op : OpCode) (s : State) : State := if cmdReady op s then popHost s else s

/-- The host presents this command word before anything else it does. A number that is no 66-bit word can not be
presented (R70, R76). -/
def presentWord (w : Nat) (s : State) : State :=
  if isCommandWord w then { s with host := .command (BitVec.ofNat 66 w) :: s.host } else s

end Sys2Proof.Machine
end

