-- ==== Sys2Proof/Machine/Operands.lean ====
section
/-! DEFINITION. The operand and data formats and the bit-level notation: positions, selection by a table, halves, groups
and rotation (spec/00_scope.md R7 to R12, spec/30_encoding.md R73, R74, R81). Concatenation `a ‖ b` is Lean's `a ++ b`
on bit vectors (R10) and exclusive or is `^^^` (R12). -/

namespace Sys2Proof.Machine

/-- `pos_N(v, p)`: the bit of v at position p, position 1 the most significant (R8). -/
def pos {n : Nat} (v : BitVec n) (p : Nat) : Bool := v.getLsbD (n - p)

/-- Appends below `acc` the bits of v that the positions name, the first position highest (R9). -/
def selOnto {n : Nat} (v : BitVec n) : List Nat → Nat → Nat
  | [], acc => acc
  | p :: ps, acc => selOnto v ps (2 * acc + (pos v p).toNat)

/-- `sel(T, N, v)` of width m, the length of T: position q of the result is position T[q] of v (R9). -/
def sel (m : Nat) {n : Nat} (table : List Nat) (v : BitVec n) : BitVec m := BitVec.ofNat m (selOnto v table 0)

/-- `hi32(v) = v >> 32` (R10). -/
def hi32 (v : Block) : Half := v.extractLsb' 32 32

/-- `lo32(v) = v & 0xFFFFFFFF` (R10). -/
def lo32 (v : Block) : Half := v.extractLsb' 0 32

/-- `rotl28(x, s) = ((x << s) | (x >> (28 - s))) & 0xFFFFFFF` (R11). -/
def rotl28 (x : HalfKey) (s : Nat) : HalfKey := (x <<< s) ||| (x >>> (28 - s))

/-- Group j (j = 0..7) of a 48-bit value: bits [47-6j : 42-6j], group 0 the most significant (R81, R174). -/
def group (x : Subkey) (j : Nat) : Group := x.extractLsb' (42 - 6 * j) 6

/-- Bits [31-4j : 28-4j] of the substitution output, output 0 the most significant (R81, R184). -/
def nibble (s : Half) (j : Nat) : Nibble := s.extractLsb' (28 - 4 * j) 4

/-- The row `B[5] ‖ B[0]` of a group in the standard layout of a substitution table (R81, R175). -/
def sboxRow (b : Group) : BitVec 2 := b.extractLsb' 5 1 ++ b.extractLsb' 0 1

/-- The column `B[4:1]` of a group in the standard layout of a substitution table (R81, R175). -/
def sboxCol (b : Group) : BitVec 4 := b.extractLsb' 1 4

/-- Byte k (k = 1..8) of a key operand, counted from the top: bits [71-8k : 64-8k] (R73). -/
def keyByte (key : KeyValue) (k : Nat) : BitVec 8 := key.extractLsb' (64 - 8 * k) 8

/-- The 56 key bits that the schedule uses: a 1 at every position that is no multiple of 8 (R73, R106). -/
def usedKeyBits : KeyValue := 0xFEFEFEFEFEFEFEFE

/-- The 64-bit value of a host's string of 8 bytes `b1 ‖ b2 ‖ … ‖ b8`, the first byte most significant (R54). This is
outside the block: keys and blocks cross its ports as whole values. -/
def ofBytes (b1 b2 b3 b4 b5 b6 b7 b8 : BitVec 8) : BitVec 64 := b1 ++ b2 ++ b3 ++ b4 ++ b5 ++ b6 ++ b7 ++ b8

end Sys2Proof.Machine
end

