-- ==== Sys2Proof/Machine/RoundFunction.lean ====
section
/-! DEFINITION. The round function: expansion, key mixing, substitution, permutation (spec/42_round_function.md). -/

namespace Sys2Proof.Machine

/-- Stage a: `sel(E, 32, R)` (R171). -/
def expand (half : Half) : Subkey := sel 48 expansion half

/-- Stage b: "XOR the 48-bit expanded value with the 48-bit round subkey" (R173). -/
def keyMix (half : Half) (subkey : Subkey) : Subkey := expand half ^^^ subkey

/-- `SFLAT[j][B]`: the output of substitution table Sj for the group value B (R175). -/
def sbox (j : Nat) (b : Group) : Nibble := BitVec.ofNat 4 ((sFlat.getD j []).getD b.toNat 0)

/-- Stage c: group j goes to table Sj, and the eight outputs are concatenated, output 0 the most significant
(R174, R184). -/
def substitute (x : Subkey) : Half :=
  sbox 0 (group x 0) ++ sbox 1 (group x 1) ++ sbox 2 (group x 2) ++ sbox 3 (group x 3) ++
    sbox 4 (group x 4) ++ sbox 5 (group x 5) ++ sbox 6 (group x 6) ++ sbox 7 (group x 7)

/-- Stage d: `sel(P, 32, s)` (R185). -/
def permute (s : Half) : Half := sel 32 permP s

/-- `Round(R, k)` (R186). -/
def roundFunction (half : Half) (subkey : Subkey) : Half := permute (substitute (keyMix half subkey))

end Sys2Proof.Machine
end

