-- ==== Sys2Proof/Machine/BlockTransform.lean ====
section
/-! DEFINITION. The Block Transform: the function Transform, the micro-steps BTL and BTR(i), and a whole block command at
the transaction level (spec/41_block_transform.md). -/

namespace Sys2Proof.Machine

/-- The subkey index of round i: i for Encrypt, 15 - i for Decrypt (R142). -/
def subkeyIndex (dir : Direction) (i : StoreIndex) : StoreIndex :=
  match dir with
  | .encrypt => i
  | .decrypt => i.rev

/-- The subkey that round n uses: the one schedule word it reads (R142, R51). -/
def roundKey (k : Vector Subkey 16) (dir : Direction) (n : Nat) : Subkey := k[subkeyIndex dir (Fin.ofNat 16 n)]

/-- `sel(IP, 64, block)` (R141). -/
def initialPerm (block : Block) : Block := sel 64 ip block

/-- `sel(FP, 64, L ‖ R)` (R145). -/
def finalPerm (l r : Half) : Block := sel 64 fp (l ++ r)

/-- `newL = Round(R, k) ^ L` (R143). -/
def newLeft (subkey : Subkey) (l r : Half) : Half := roundFunction r subkey ^^^ l

/-- The halves after round i: `(R, newL)`, and with no swap `(newL, R)` when i = 15 (R143, R144). -/
def roundHalves (subkey : Subkey) (i : Nat) (l r : Half) : Half × Half :=
  if i < 15 then (r, newLeft subkey l r) else (newLeft subkey l r, r)

/-- The halves before round n, from those before round 0 (R146). -/
def blockHalves (k : Vector Subkey 16) (dir : Direction) (l r : Half) : Nat → Half × Half
  | 0 => (l, r)
  | n + 1 =>
    match blockHalves k dir l r n with
    | (l', r') => roundHalves (roundKey k dir n) n l' r'

/-- The halves that go into the final permutation (R146). -/
def finalHalves (k : Vector Subkey 16) (block : Block) (dir : Direction) : Half × Half :=
  blockHalves k dir (hi32 (initialPerm block)) (lo32 (initialPerm block)) 16

/-- `Transform(K, block, dir)` (R146). -/
def transform (k : Vector Subkey 16) (block : Block) (dir : Direction) : Block :=
  match finalHalves k block dir with
  | (l, r) => finalPerm l r

/-- Micro-step BTL, on the edge that accepts an ENCRYPT or DECRYPT (R152). DOUT is not written. -/
def btl (dir : Direction) (block : Block) (s : State) : State :=
  setSequencer .bt 0
    (flagsBlockAccepted { s with l := hi32 (initialPerm block), r := lo32 (initialPerm block), dir := dir })

/-- Micro-step BTR(i) with i = RND, 0 ≤ i ≤ 15 (R153); the last one writes DOUT and completes the command (R154). It reads
one schedule word and writes nothing of the key state. -/
def btr (s : State) : State :=
  let i := s.rnd.toNat
  let n := newLeft (roundKey s.k s.dir i) s.l s.r
  if i < 15 then setSequencer .bt (rndOf (i + 1)) { s with l := s.r, r := n }
  else setSequencer .idle 0 (flagsBlockDone { s with l := n, dout := finalPerm n s.r })

/-- A whole block command at the transaction level: `DOUT <- Transform(K, block, dir)`, `DV <- 1`; KEY, K and SV unchanged
(R150, R151). L and R keep the halves that entered the final permutation and DIR the direction
(R24, R30, spec/92_eei_decisions.md D22). -/
def runBlock (dir : Direction) (block : Block) (s : State) : State :=
  match finalHalves s.k block dir with
  | (l, r) => setSequencer .idle 0 (flagsBlockDone { s with dout := finalPerm l r, l := l, r := r, dir := dir })

end Sys2Proof.Machine
end

