-- ==== Sys2Proof/Machine/KeyScheduler.lean ====
section
/-! DEFINITION. The Key Scheduler: the function Schedule, the micro-steps KS0 and KSr, and the whole LOADKEY at the
transaction level (spec/40_key_scheduler.md). -/

namespace Sys2Proof.Machine

/-- SHIFTS[r], r = 1..16 (R104). -/
def shiftAmount (r : Nat) : Nat := shifts.getD (r - 1) 0

/-- `C0 = sel(PC1_LEFT, 64, key)` (R103). -/
def c0 (key : KeyValue) : HalfKey := sel 28 pc1Left key

/-- `D0 = sel(PC1_RIGHT, 64, key)` (R103). -/
def d0 (key : KeyValue) : HalfKey := sel 28 pc1Right key

/-- `(Cr, Dr)`: the halves after schedule round r; the halves are rotated independently (R105). -/
def keyHalves (key : KeyValue) : Nat → HalfKey × HalfKey
  | 0 => (c0 key, d0 key)
  | r + 1 =>
    match keyHalves key r with
    | (c, d) => (rotl28 c (shiftAmount (r + 1)), rotl28 d (shiftAmount (r + 1)))

/-- `sel(PC2, 56, C ‖ D)` (R108). -/
def pc2Select (c d : HalfKey) : Subkey := sel 48 pc2 (c ++ d)

/-- The subkey of schedule round r, r = 1..16 (R108). -/
def roundSubkey (key : KeyValue) (r : Nat) : Subkey :=
  match keyHalves key r with
  | (c, d) => pc2Select c d

/-- `Schedule(key)`: the subkey of schedule round r stands at index r - 1 (R110, R15). -/
def schedule (key : KeyValue) : Vector Subkey 16 := Vector.ofFn fun i => roundSubkey key (i.val + 1)

/-- Micro-step KS0, on the edge that accepts a LOADKEY (R121). K is not written. -/
def ks0 (key : KeyValue) (s : State) : State :=
  setSequencer .ks 1 (flagsKeyAccepted { s with key := key, c := c0 key, d := d0 key })

/-- The rotation and the one store write of micro-step KSr (R122). It reads C and D, and neither KEY nor K. -/
def ksRotateAndStore (r : Nat) (s : State) : State :=
  let c' := rotl28 s.c (shiftAmount r)
  let d' := rotl28 s.d (shiftAmount r)
  writeK { s with c := c', d := d' } (Fin.ofNat 16 (r - 1)) (pc2Select c' d')

/-- Micro-step KSr with r = RND, 1 ≤ r ≤ 16 (R122); the last one completes the command (R123). -/
def ksr (s : State) : State :=
  let r := s.rnd.toNat
  let t := ksRotateAndStore r s
  if r < 16 then setSequencer .ks (rndOf (r + 1)) t else setSequencer .idle 0 (flagsKeyDone t)

/-- A whole LOADKEY at the transaction level: `KEY <- key`, `K <- Schedule(key)`, `SV <- 1`, DOUT and DV unchanged (R120).
C and D keep C16 and D16 (R29, spec/92_eei_decisions.md D22). -/
def loadKey (key : KeyValue) (s : State) : State :=
  match keyHalves key 16 with
  | (c, d) => setSequencer .idle 0 (flagsKeyDone { s with key := key, k := schedule key, c := c, d := d })

end Sys2Proof.Machine
end

