-- ==== Sys2Proof/Machine/Timing.lean ====
section
/-! DEFINITION. Latency: a number of clock edges that depends on the kind of command only, and the pace at which an
implementation works through the rounds of a command (spec/00_scope.md R6, spec/70_reset_and_hazards.md R240 to R242). -/

namespace Sys2Proof.Machine

/-- How many of a command's sixteen rounds are done once edge `e` has passed, edge 0 being the edge that accepts it: all
from the last edge on, and at most fifteen before it (R241; log entry 8). -/
def roundsBy (p : Pace) (e : Nat) : Nat := if p.last ≤ e then 16 else min 15 (p.rounds.take (e + 1)).sum

/-- The latency of a pace: clock edges from the edge that accepts the command to the first edge at which another can be
accepted (R6). -/
def paceLatency (p : Pace) : Nat := p.last + 1

/-- The reference timing: the load at the accepting edge, then one micro-step an edge, 17 edges in all (R242). -/
def referencePace : Pace where
  last := 16
  rounds := 0 :: List.replicate 15 1

/-- Clock edges from the edge that accepts a command to the first edge at which another can be accepted: LAT_KEY and
LAT_BLK of the implementation (R6), and 1 for NOP (R242). No register of R20 depends on it (R241). -/
def latency (i : Instr) (s : State) : Nat :=
  match i with
  | .nop _ => 1
  | .loadkey _ => paceLatency s.keyPace
  | .encrypt _ => paceLatency s.blockPace
  | .decrypt _ => paceLatency s.blockPace

end Sys2Proof.Machine
end

