-- ==== Sys2Proof/Machine/Sequencer.lean ====
section
/-! DEFINITION. The sequencer: the next micro-step, and one clock edge of an implementation of any pace
(spec/10_state.md R32 to R35, spec/30_encoding.md R78, spec/60_exceptions.md R202, spec/70_reset_and_hazards.md R220,
R241). -/

namespace Sys2Proof.Machine

/-- The next micro-step of the command in progress; when idle there is none (R35). With RND outside the values R33 allows
for the phase, or PH at its fourth code, no rule gives one; only a block that has never been reset can be there
(log entry 7). -/
def microStep (s : State) : State :=
  match s.ph with
  | .idle => s
  | .ks => if 1 ≤ s.rnd.toNat ∧ s.rnd.toNat ≤ 16 then ksr s else noRule s
  | .bt => if s.rnd.toNat ≤ 15 then btr s else noRule s
  | .code3 => noRule s

/-- How many micro-steps bring the command in progress to where its pace has it at edge `s.age` (R241). -/
def microStepsDue (s : State) : Nat :=
  match s.ph with
  | .idle => 0
  | .ks => if 1 ≤ s.rnd.toNat ∧ s.rnd.toNat ≤ 16 then roundsBy s.keyPace s.age - (s.rnd.toNat - 1) else 1
  | .bt => if s.rnd.toNat ≤ 15 then roundsBy s.blockPace s.age - s.rnd.toNat else 1
  | .code3 => 1

/-- The micro-steps that are due, in order. -/
def advance (s : State) : State := microStep^[microStepsDue s] s

/-- The edge that accepts a command: the load micro-step, then those of the first rounds if the implementation performs
some at the same edge (R121, R152, R241). A NOP has no micro-step (R155). With BUSY = 0 and PH not IDLE, where only a block
that was never reset can be, the micro-step that R122 or R153 gives for that PH is not performed beside the acceptance
(DESIGN CHOICE, log entry 16). -/
def acceptEdge (i : Instr) (s : State) : State :=
  match i with
  | .nop _ => s
  | .loadkey key => advance (startPace (ks0 key s))
  | .encrypt block => advance (startPace (btl .encrypt block s))
  | .decrypt block => advance (startPace (btl .decrypt block s))

/-- A clock edge with `rst = 0` at which no command is accepted: the command port has no effect (R78), and a command in
progress goes on (R202). -/
def quietEdge (s : State) : State := advance (tick (passEdges 1 s))

/-- One rising clock edge with these inputs: reset wins over everything (R202, R220, R221); then a command that is
presented and ready is accepted (R78); else the command port has no effect. `sk_addr` is never latched (R79). Where R78
accepts and R35 gives a micro-step too, BUSY = 0 with PH not IDLE before the first reset, the acceptance alone takes place
(DESIGN CHOICE, log entry 16). -/
def clockEdge (p : Pins) (s : State) : State :=
  if p.rst then resetStep (passEdges 1 s)
  else if p.cmdValid && cmdReady p.cmdOp s then acceptEdge (decode (p.cmdOp ++ p.cmdData)) (passEdges 1 s)
  else quietEdge s

end Sys2Proof.Machine
end

