-- ==== Sys2Proof/Machine/BlockCommands.lean ====
section
/-! DEFINITION. The meanings of NOP, ENCRYPT and DECRYPT, whole, at the transaction level
(spec/41_block_transform.md R150, R151, R155). -/

namespace Sys2Proof.Machine

/-- NOP: accepted when BUSY = 0, whatever SV is; no register, flag or store word changes (R155). -/
def execNop (data : BitVec 64) (s : State) : Result :=
  if cmdReady (Instr.nop data).op s then .next (passEdges (latency (.nop data) s) s)
  else .next (quietEdge s)

/-- ENCRYPT: accepted when BUSY = 0 and SV = 1 (R150); else it waits and nothing is signalled (R203). -/
def execEncrypt (block : Block) (s : State) : Result :=
  if cmdReady (Instr.encrypt block).op s then
    .next (passEdges (latency (.encrypt block) s) (runBlock .encrypt block s))
  else .next (quietEdge s)

/-- DECRYPT: accepted when BUSY = 0 and SV = 1 (R151); else it waits and nothing is signalled (R203). -/
def execDecrypt (block : Block) (s : State) : Result :=
  if cmdReady (Instr.decrypt block).op s then
    .next (passEdges (latency (.decrypt block) s) (runBlock .decrypt block s))
  else .next (quietEdge s)

end Sys2Proof.Machine
end

