-- ==== Sys2Proof/Machine/KeyCommands.lean ====
section
/-! DEFINITION. The meaning of LOADKEY, whole, at the transaction level (spec/40_key_scheduler.md R120). -/

namespace Sys2Proof.Machine

/-- LOADKEY: accepted when BUSY = 0, whatever SV and DV are (R120, R78); else it waits while the edge passes. -/
def execLoadkey (key : KeyValue) (s : State) : Result :=
  if cmdReady (Instr.loadkey key).op s then .next (passEdges (latency (.loadkey key) s) (loadKey key s))
  else .next (quietEdge s)

end Sys2Proof.Machine
end

