-- ==== Sys2Proof/Machine/Dispatch.lean ====
section
/-! DEFINITION. One arm per command (spec/30_encoding.md R72). -/

namespace Sys2Proof.Machine

def exec (i : Instr) (s : State) : Host.Outcome State Fault Refusal :=
  match i with
  | .nop data => Sys2Proof.Machine.execNop data s
  | .loadkey key => Sys2Proof.Machine.execLoadkey key s
  | .encrypt block => Sys2Proof.Machine.execEncrypt block s
  | .decrypt block => Sys2Proof.Machine.execDecrypt block s

end Sys2Proof.Machine
end

