-- ==== Sys2Proof/Machine/Step.lean ====
section
/-! DEFINITION. One step: the next thing the host does, at the level it does it (spec/00_scope.md R14; log entry 2). -/

namespace Sys2Proof.Machine

/-- One step. With nothing left for the host to do, an edge passes with `rst = 0` and no command presented (log entry 3). -/
def step (s : State) : Host.Outcome State Fault Refusal :=
  match s.host with
  | [] => .next (quietEdge s)
  | .edge pins :: _ => .next (clockEdge pins (popHost s))
  | .command word :: _ => exec (decode word) (takePresented (decode word).op s)

/-- The state whose very next step runs the command of a table word: the host presents it (log entries 9 and 10). -/
def State.withFetchWord (s : State) (nbits w : Nat) : State := presentWord (w % 2 ^ nbits) s

end Sys2Proof.Machine
end

