-- ==== Sys2Proof/Machine/Ports.lean ====
section
/-! DEFINITION. The output ports, as functions of the state and of the input ports in the same cycle
(spec/30_encoding.md R71, R78, R79; spec/20_memory.md R52). -/

namespace Sys2Proof.Machine

/-- The values of the block's output ports in one clock cycle (R71). -/
structure Outputs where
  /-- `cmd_ready` (R78) -/
  cmdReady : Bool
  /-- `rsp_valid`, the flag DV -/
  rspValid : Bool
  /-- `rsp_data` -/
  rspData : Block
  /-- `key_valid`, the flag SV -/
  keyValid : Bool
  /-- `busy`, the flag BUSY -/
  busy : Bool
  /-- `sk_data` (R79) -/
  skData : Subkey
  deriving DecidableEq, Repr

/-- `sk_data`: `K[sk_addr]` while SV = 1, whatever else the block is doing; while SV = 0 a free value, drawn anew in every
cycle (R52, R79; log entry 5). -/
def skData (addr : BitVec 4) (s : State) : Subkey :=
  if s.sv then readK s (storeIndex addr) else Config.skDraw s.clock addr

/-- `rsp_data`: DOUT while DV = 1; while DV = 0 a free value (R28, R71; log entry 6). -/
def rspData (s : State) : Block := if s.dv then s.dout else Config.rspDraw s.clock

/-- All output ports in the cycle in which the inputs are `p` and the state is `s` (R71). -/
def outputs (p : Pins) (s : State) : Outputs where
  cmdReady := cmdReady p.cmdOp s
  rspValid := s.dv
  rspData := rspData s
  keyValid := s.sv
  busy := s.busy
  skData := skData p.skAddr s

end Sys2Proof.Machine
end

