-- ==== Sys2Proof/Machine/Program.lean ====
section
/-! DEFINITION. Command sequences: commands, aliases, the pseudo-instruction TRYKEY and the directives RESET and READSK
(spec/30_encoding.md R77). -/

namespace Sys2Proof.Machine

/-- One line of a program (R77). -/
inductive Line where
  /-- a command under its own mnemonic -/
  | command (i : Instr)
  /-- `DeriveSchedule k` -/
  | deriveSchedule (key : KeyValue)
  /-- `Encrypt b` -/
  | encryptBlock (block : Block)
  /-- `Decrypt b` -/
  | decryptBlock (block : Block)
  /-- `TRYKEY k, c` -/
  | tryKey (key : KeyValue) (block : Block)
  /-- `RESET`: drive `rst = 1` for one rising edge -/
  | reset
  /-- `READSK n`: observe `sk_data` with `sk_addr = n` -/
  | readSk (n : Nat)
  deriving DecidableEq, Repr

/-- READSK has n in 0..15; every other line is legal (R77, R75). -/
def Line.wellFormed : Line → Bool
  | .command i => i.wellFormed
  | .readSk n => n < 16
  | .deriveSchedule _ => true
  | .encryptBlock _ => true
  | .decryptBlock _ => true
  | .tryKey _ _ => true
  | .reset => true

/-- The commands a line expands to: an alias to exactly one, TRYKEY to LOADKEY then DECRYPT, a directive to none (R77). -/
def Line.commands : Line → List Instr
  | .command i => [i]
  | .deriveSchedule key => [.loadkey key]
  | .encryptBlock block => [.encrypt block]
  | .decryptBlock block => [.decrypt block]
  | .tryKey key block => [.loadkey key, .decrypt block]
  | .reset => []
  | .readSk _ => []

/-- The input ports during RESET: `rst = 1` and no command presented. -/
def resetPins : Pins where
  rst := true
  cmdValid := false
  cmdOp := 0
  cmdData := 0
  skAddr := 0

/-- What the host does for a line, as `step` reads it. READSK is an observation and takes no step. -/
def Line.events : Line → List HostEvent
  | .reset => [.edge resetPins]
  | line => line.commands.map fun i => .command (encode i)

/-- The host is given a program to run (log entry 10). -/
def loadProgram (program : List Line) (s : State) : State := { s with host := program.flatMap Line.events }

/-- How a program stands when it can not go on. -/
inductive ProgramEnd where
  /-- It has ended: the state after its last command has completed, and what each READSK showed. -/
  | ended (s : State) (seen : List Subkey)
  /-- It does not end: command `i` is presented and not accepted in state `s` (R77, R203). A program started with BUSY = 1
  is answered so too, by the model's choice (log entry 15). -/
  | waiting (s : State) (seen : List Subkey) (i : Instr)
  /-- A meaning stopped. -/
  | faulted (f : Fault)
  /-- A meaning refused. -/
  | refused (e : Refusal)
  deriving DecidableEq, Repr

/-- Commands one after the other, each presented when the one before it has completed (R77). R77 reads programs over
transaction-level states, where BUSY = 0. Started with BUSY = 1 this answers `waiting` at once, while `step` on `loadProgram`
waits until BUSY = 0 and runs the command (DESIGN CHOICE, log entry 15). -/
def runCommands (seen : List Subkey) : List Instr → State → ProgramEnd
  | [], s => .ended s seen
  | i :: rest, s =>
    if cmdReady i.op s then
      match exec i s with
      | .next t => runCommands seen rest t
      | .fault f => .faulted f
      | .refused e => .refused e
    else .waiting s seen i

/-- One line at the transaction level (R77). READSK reads the port in the cycle it stands in, and no cycle passes: two READSK
lines of one index with no other line between them show the same draw while SV = 0 (DESIGN CHOICE, log entry 17). -/
def runLine (line : Line) (seen : List Subkey) (s : State) : ProgramEnd :=
  match line with
  | .reset => .ended (resetStep (passEdges 1 s)) seen
  | .readSk n => .ended s (seen ++ [skData (BitVec.ofNat 4 n) s])
  | line => runCommands seen line.commands s

/-- A program at the transaction level: a deterministic function of the state it starts in (R77). -/
def runProgram : List Line → List Subkey → State → ProgramEnd
  | [], seen, s => .ended s seen
  | line :: rest, seen, s =>
    match runLine line seen s with
    | .ended t seen' => runProgram rest seen' t
    | stopped => stopped

end Sys2Proof.Machine
end

