-- ==== Sys2Proof/Machine/Assembler.lean ====
section
/-! DEFINITION. The textual form of a program line (spec/30_encoding.md R77): a mnemonic, its operands, `#` and a comment.
Spaces and tabs separate words, and hexadecimal digits may be of either case (DESIGN CHOICE, log entry 13). -/

namespace Sys2Proof.Machine

/-- Why a text is no program line. -/
inductive AsmReject where
  /-- The first word is no mnemonic, alias or directive of R77. -/
  | unknownMnemonic
  /-- A 64-bit operand is not `0x` and exactly 16 hexadecimal digits. -/
  | badOperand
  /-- READSK's index is not a decimal number in 0..15. -/
  | badIndex
  /-- The mnemonic stands with another number of operands than it has. -/
  | wrongOperands
  deriving DecidableEq, Repr

/-- The text up to `#`. -/
def dropComment : List Char → List Char
  | [] => []
  | c :: cs => if c = '#' then [] else c :: dropComment cs

/-- The words of a text; a comma is a word of its own. `word` is the word being read, last letter first. -/
def splitWords (word : List Char) : List Char → List (List Char)
  | [] => if word.isEmpty then [] else [word.reverse]
  | c :: cs =>
    if c = ' ' ∨ c = '\t' then
      (if word.isEmpty then [] else [word.reverse]) ++ splitWords [] cs
    else if c = ',' then
      (if word.isEmpty then [] else [word.reverse]) ++ ([','] :: splitWords [] cs)
    else splitWords (c :: word) cs

/-- The value of a digit in base 16. -/
def hexDigit (c : Char) : Option Nat :=
  if '0' ≤ c ∧ c ≤ '9' then some (c.toNat - 48)
  else if 'A' ≤ c ∧ c ≤ 'F' then some (c.toNat - 55)
  else if 'a' ≤ c ∧ c ≤ 'f' then some (c.toNat - 87)
  else none

/-- The value of a string of digits below `base`, most significant first, after `acc`. -/
def digits (base : Nat) (acc : Nat) : List Char → Option Nat
  | [] => some acc
  | c :: cs =>
    match hexDigit c with
    | some x => if x < base then digits base (base * acc + x) cs else none
    | none => none

/-- A 64-bit hexadecimal literal of exactly 16 digits with `0x` before them (R77). -/
def parseOperand (word : List Char) : Except AsmReject (BitVec 64) :=
  match word with
  | '0' :: 'x' :: ds =>
    if ds.length = 16 then
      match digits 16 0 ds with
      | some v => .ok (BitVec.ofNat 64 v)
      | none => .error .badOperand
    else .error .badOperand
  | _ => .error .badOperand

/-- READSK's index, a decimal number in 0..15 (R77). -/
def parseIndex (word : List Char) : Except AsmReject Nat :=
  match word with
  | [] => .error .badIndex
  | ds =>
    match digits 10 0 ds with
    | some v => if v < 16 then .ok v else .error .badIndex
    | none => .error .badIndex

/-- A mnemonic with one 64-bit operand. -/
def parseOne (make : BitVec 64 → Line) (operands : List (List Char)) : Except AsmReject (Option Line) :=
  match operands with
  | [w] => (parseOperand w).map fun v => some (make v)
  | _ => .error .wrongOperands

/-- TRYKEY's two operands, a comma between them. -/
def parseTryKey (operands : List (List Char)) : Except AsmReject (Option Line) :=
  match operands with
  | [w, [','], v] =>
    match parseOperand w, parseOperand v with
    | .ok key, .ok block => .ok (some (.tryKey key block))
    | .error e, _ => .error e
    | _, .error e => .error e
  | _ => .error .wrongOperands

/-- A mnemonic with no operand. -/
def parseNone (line : Line) (operands : List (List Char)) : Except AsmReject (Option Line) :=
  match operands with
  | [] => .ok (some line)
  | _ => .error .wrongOperands

/-- READSK's one operand. -/
def parseReadSk (operands : List (List Char)) : Except AsmReject (Option Line) :=
  match operands with
  | [w] => (parseIndex w).map fun n => some (.readSk n)
  | _ => .error .wrongOperands

/-- The mnemonics, aliases and directives of R77 with what reads their operands. NOP's ignored operand field is 0, as in
the programs of spec/95_test_vectors.md section 7. -/
def mnemonics : List (List Char × (List (List Char) → Except AsmReject (Option Line))) :=
  [(['N', 'O', 'P'], parseNone (.command (.nop 0))),
   (['L', 'O', 'A', 'D', 'K', 'E', 'Y'], parseOne fun v => .command (.loadkey v)),
   (['E', 'N', 'C', 'R', 'Y', 'P', 'T'], parseOne fun v => .command (.encrypt v)),
   (['D', 'E', 'C', 'R', 'Y', 'P', 'T'], parseOne fun v => .command (.decrypt v)),
   (['D', 'e', 'r', 'i', 'v', 'e', 'S', 'c', 'h', 'e', 'd', 'u', 'l', 'e'], parseOne .deriveSchedule),
   (['E', 'n', 'c', 'r', 'y', 'p', 't'], parseOne .encryptBlock),
   (['D', 'e', 'c', 'r', 'y', 'p', 't'], parseOne .decryptBlock),
   (['T', 'R', 'Y', 'K', 'E', 'Y'], parseTryKey),
   (['R', 'E', 'S', 'E', 'T'], parseNone .reset),
   (['R', 'E', 'A', 'D', 'S', 'K'], parseReadSk)]

/-- One line of text; `none` for a line that holds no word outside its comment. -/
def parseLine (text : List Char) : Except AsmReject (Option Line) :=
  match splitWords [] (dropComment text) with
  | [] => .ok none
  | name :: operands =>
    match mnemonics.find? fun m => m.1 == name with
    | some m => m.2 operands
    | none => .error .unknownMnemonic

end Sys2Proof.Machine
end

