-- ==== Sys2Proof/Machine/Instances.lean ====
section
/-! DEFINITION. A system of N_INSTANCES DESCORE blocks (spec/60_exceptions.md R211, spec/92_eei_decisions.md D17). Each is
a machine of its own with a host of its own; they share no state and no signal. -/

namespace Sys2Proof.Machine

/-- The states of the blocks of one system. -/
abbrev System := Vector State Config.nInstances

/-- Block `j` of a system of `n` blocks takes one step; which block moves next is outside the system. -/
def stepInstance {n : Nat} (j : Fin n) (system : Vector State n) : Host.Outcome (Vector State n) Fault Refusal :=
  match step system[j] with
  | .next t => .next (system.set j t)
  | .fault f => .fault f
  | .refused e => .refused e

end Sys2Proof.Machine
end

