-- ==== Sys2Proof/Safety.lean ====
section
/-! DEFINITION. What statements are made of: the invariants of spec/10_state.md R37, the two comparisons of states behind
"no unwritten register reaches a result" (R37 item 6) and "nothing depends on data" (R36), and which command a step
accepts. -/

namespace Sys2Proof.Machine

/-- Items 2 to 4 of R37 with the ranges of R33 and R34: BUSY, SV, DV and RND fit the phase. -/
def SequencerOk (s : State) : Prop :=
  match s.ph with
  | .idle => s.busy = false ∧ s.rnd = 0
  | .ks => s.busy = true ∧ s.sv = false ∧ 1 ≤ s.rnd.toNat ∧ s.rnd.toNat ≤ 16
  | .bt => s.busy = true ∧ s.sv = true ∧ s.dv = false ∧ s.rnd.toNat ≤ 15
  | .code3 => False

/-- A command in progress has not reached the last edge of its pace, and RND says how many rounds its pace has done
(R33, R240, R241). -/
def PaceOk (s : State) : Prop :=
  (s.ph = .ks → s.age < s.keyPace.last ∧ s.rnd.toNat = roundsBy s.keyPace s.age + 1) ∧
    (s.ph = .bt → s.age < s.blockPace.last ∧ s.rnd.toNat = roundsBy s.blockPace s.age)

/-- Item 1 of R37: a valid schedule is the schedule of KEY. -/
def ScheduleOk (s : State) : Prop := s.sv = true → s.k = schedule s.key

/-- While a LOADKEY runs, C and D are the halves of the schedule rounds done, and the words they gave are stored
(R29, R33, R122). -/
def KeyRunOk (s : State) : Prop :=
  s.ph = .ks →
    keyHalves s.key (s.rnd.toNat - 1) = (s.c, s.d) ∧
      ∀ i : StoreIndex, i.val + 1 < s.rnd.toNat → s.k[i] = (schedule s.key)[i]

/-- The invariant of the machine (R37 items 1 to 4, R33, R240). -/
structure Inv (s : State) : Prop where
  sequencer : SequencerOk s
  pace : PaceOk s
  schedule : ScheduleOk s
  keyRun : KeyRunOk s

/-- The same registers, whatever the model's own edge count, clock and host. -/
def SameRegisters (s t : State) : Prop :=
  { s with age := 0, clock := 0, host := [] } = { t with age := 0, clock := 0, host := [] }

/-- The same implementation: the same pace for each kind of command (R6). -/
def SameImplementation (s t : State) : Prop := s.keyPace = t.keyPace ∧ s.blockPace = t.blockPace

/-- Two states of one implementation that agree on the flags, the sequencer, the clock and the host, and on a register only
where it has been written since the last reset and is still of use: K under SV, the words a running LOADKEY has stored and
its C and D, the L, R and DIR of a running block command, DOUT under DV (R37 item 6, R39). KEY is not among them: nothing
reads it (R21). -/
structure AgreeOnWritten (s t : State) : Prop where
  implementation : SameImplementation s t
  age : s.ph ≠ .idle → s.age = t.age
  sv : s.sv = t.sv
  busy : s.busy = t.busy
  dv : s.dv = t.dv
  ph : s.ph = t.ph
  rnd : s.rnd = t.rnd
  clock : s.clock = t.clock
  host : s.host = t.host
  store : s.sv = true → s.k = t.k
  keyRun : s.ph = .ks → s.c = t.c ∧ s.d = t.d ∧ ∀ i : StoreIndex, i.val + 1 < s.rnd.toNat → s.k[i] = t.k[i]
  blockRun : s.ph = .bt → s.l = t.l ∧ s.r = t.r ∧ s.dir = t.dir
  result : s.dv = true → s.dout = t.dout

/-- `n` steps, ending at the first stop: `Host.Core.run` of this machine, with State written as State. -/
def runSteps : Nat → State → Result
  | 0, s => .next s
  | n + 1, s =>
    match step s with
    | .next t => runSteps n t
    | .fault f => .fault f
    | .refused e => .refused e

/-- Two outcomes of the same kind, with next states related by `R` and the same reason for a stop. -/
def OutcomesRelated (R : State → State → Prop) : Result → Result → Prop
  | .next s, .next t => R s t
  | .fault f, .fault g => f = g
  | .refused e, .refused g => e = g
  | _, _ => False

/-- A host event without its data: which command and when, not on which operand. -/
def HostEvent.control : HostEvent → HostEvent
  | .edge p => .edge { p with cmdData := 0, skAddr := 0 }
  | .command w => .command (opField w ++ (0 : BitVec 64))

/-- A state without its data: flags, sequencer, paces, clock and the kinds of the events to come (R36, R149). -/
def controlOf (s : State) : State :=
  { State.reset with
    sv := s.sv, busy := s.busy, dv := s.dv, rnd := s.rnd, ph := s.ph
    keyPace := s.keyPace, blockPace := s.blockPace, age := s.age, clock := s.clock
    host := s.host.map HostEvent.control }

/-- Two states with the same control and any data. -/
def SameControl (s t : State) : Prop := controlOf s = controlOf t

/-- The event the next step handles, if the host does anything. -/
def nextEvent (s : State) : Option HostEvent := s.host.head?

/-- The command the next step accepts, at either level, if it accepts one (R78). -/
def acceptedBy (s : State) : Option Instr :=
  match nextEvent s with
  | some (.edge p) =>
    if p.rst = false ∧ p.cmdValid = true ∧ cmdReady p.cmdOp s = true then some (decode (p.cmdOp ++ p.cmdData)) else none
  | some (.command w) => if cmdReady (decode w).op s = true then some (decode w) else none
  | none => none

/-- The next step handles an edge with `rst = 1` (R220). -/
def resets (s : State) : Prop := ∃ p, nextEvent s = some (.edge p) ∧ p.rst = true

/-- The next step handles a whole command at the transaction level. -/
def wholeCommand (s : State) : Prop := ∃ w, nextEvent s = some (.command w)

/-- A LOADKEY is in progress, and the next edge is the last of its pace. -/
def keyCompletes (s : State) : Prop := s.ph = .ks ∧ s.age + 1 = s.keyPace.last

/-- A block command is in progress, and the next edge is the last of its pace. -/
def blockCompletes (s : State) : Prop := s.ph = .bt ∧ s.age + 1 = s.blockPace.last

/-- The input ports present command `i` with `rst = 0` (R78). -/
def Presents (p : Pins) (i : Instr) : Prop :=
  p.rst = false ∧ p.cmdValid = true ∧ p.cmdOp = i.op ∧ p.cmdData = i.data

/-- A list of clock edges as host events. -/
def edges (ps : List Pins) : List HostEvent := ps.map .edge

/-- None of the edges is a reset; the command port and `sk_addr` may hold anything. -/
def NoReset (ps : List Pins) : Prop := ∀ p ∈ ps, p.rst = false

/-- None of the events is a reset. -/
def NoResetEvent (es : List HostEvent) : Prop := ∀ p, HostEvent.edge p ∈ es → p.rst = false

/-- CUM[r] = SHIFTS[1] + … + SHIFTS[r] (R104). -/
def cumShift (r : Nat) : Nat := (shifts.take r).sum

/-- FIPS 46-3's recurrence: `Ln = R(n-1)`, `Rn = L(n-1) ^ f(R(n-1), Kn)`, with `Kn = K[n-1]` for Encrypt and `K[16-n]` for
Decrypt (R156). -/
def fipsHalves (k : Vector Subkey 16) (dir : Direction) (l r : Half) : Nat → Half × Half
  | 0 => (l, r)
  | n + 1 =>
    match fipsHalves k dir l r n with
    | (l', r') =>
      (r', l' ^^^ roundFunction r' (match dir with
        | .encrypt => k[Fin.ofNat 16 n]
        | .decrypt => k[Fin.ofNat 16 (15 - n)]))

/-- The row of SSTD[j] and the column that a group addresses (R175). -/
def sboxStandard (j : Nat) (b : Group) : Nibble :=
  BitVec.ofNat 4 (((sStd.getD j []).getD (sboxRow b).toNat []).getD (sboxCol b).toNat 0)

end Sys2Proof.Machine
end

