-- ==== Sys2Proof/Certificates/Slice0/Obligations.lean ====
section
/-! DEFINITION. The statements for the provers, from the numbered rules of spec/. No statement rests on a register's value
after reset that log entry 1 names, nor on a free value; the pace of an implementation is an argument of each statement
that speaks of edges (R6, log entry 8). -/

open Sys2Proof Sys2Proof.Machine

/-! ## Encoding -/

/-- R70, R72: decoding the word of a command gives the command back, for every command and every operand. (The
numbers are read as log entry 9 says, and NOP keeps its operand: log entry 12.) -/
def Obligations.DecodeAfterEncode : Prop :=
  ∀ i : Instr, decode (encode i) = i ∧ decodeRaw (encode i).toNat = .ok i

/-- R70, R75: every 66-bit word is the word of exactly one command. (NOP keeps its operand: log entry 12.) -/
def Obligations.EncodeAfterDecode : Prop :=
  ∀ w : CommandWord, encode (decode w) = w ∧ ∀ i : Instr, encode i = w → i = decode w

/-- R76: every command is 66 bits, and decoding looks at bits 65:64 only to tell the command; the rest is the
operand. A number with a higher bit is no command word. (The refusal of longer numbers is the model's, log entry 9,
and NOP keeps its operand: log entry 12.) -/
def Obligations.DecodeReadsOpFieldOnly : Prop :=
  (∀ w : CommandWord, (decode w).op = opField w ∧ (decode w).data = dataField w) ∧
    (∀ w v : CommandWord, opField w = opField v → (decode w).op = (decode v).op) ∧
    (∀ n : Nat, n < 2 ^ 66 → decodeRaw n = .ok (decode (BitVec.ofNat 66 n))) ∧
    ∀ n : Nat, 2 ^ 66 ≤ n → decodeRaw n = .error .widerThanCommandPort

/-- R72 and the words of spec/95_test_vectors.md section 7, decoded. (Numbers are read as log entry 9 says.) -/
def Obligations.KnownCommandWordsDecode : Prop :=
  decodeTableWord 72 0x00000000000000000 = some (.nop 0) ∧
    decodeTableWord 72 0x1133457799BBCDFF1 = some (.loadkey 0x133457799BBCDFF1) ∧
    decodeTableWord 72 0x20123456789ABCDEF = some (.encrypt 0x0123456789ABCDEF) ∧
    decodeTableWord 72 0x385E813540F0AB405 = some (.decrypt 0x85E813540F0AB405) ∧
    decodeTableWord 72 0x40000000000000000 = none

/-! ## Notation -/

/-- R9: position q of `sel(T, N, v)` is position T[q] of v, and in bit indices `r[M - q] = v[N - T[q]]`. -/
def Obligations.SelectionCopiesPositions : Prop :=
  ∀ (m n : Nat) (table : List Nat) (v : BitVec n) (q : Nat),
    table.length = m → (∀ p ∈ table, 1 ≤ p ∧ p ≤ n) → 1 ≤ q → q ≤ m →
      pos (sel m table v) q = pos v (table.getD (q - 1) 0) ∧
        (sel m table v).getLsbD (m - q) = v.getLsbD (n - table.getD (q - 1) 0)

/-- R11: `rotl28` by 1 or 2, by its formula and by positions. -/
def Obligations.RotationIsCircular : Prop :=
  ∀ (x : HalfKey) (s : Nat), s = 1 ∨ s = 2 →
    (rotl28 x s).toNat = ((x.toNat <<< s) ||| (x.toNat >>> (28 - s))) &&& 0xFFFFFFF ∧
      ∀ p, 1 ≤ p → p ≤ 28 → pos (rotl28 x s) p = pos x ((p - 1 + s) % 28 + 1)

/-! ## Key scheduler -/

/-- R105: each schedule round rotates each half on its own by SHIFTS[r], bit by bit in positions. -/
def Obligations.ScheduleRoundRotatesEachHalf : Prop :=
  ∀ (key : KeyValue) (r p : Nat), 1 ≤ r → r ≤ 16 → 1 ≤ p → p ≤ 28 →
    pos (keyHalves key r).1 p = pos (keyHalves key (r - 1)).1 ((p - 1 + shiftAmount r) % 28 + 1) ∧
      pos (keyHalves key r).2 p = pos (keyHalves key (r - 1)).2 ((p - 1 + shiftAmount r) % 28 + 1)

/-- R108, R110: the subkey of schedule round r is PC2 of the halves after that round's rotation, at index r - 1. -/
def Obligations.SubkeyStandsAtRoundLessOne : Prop :=
  ∀ (key : KeyValue) (r : Nat) (i : StoreIndex), 1 ≤ r → r ≤ 16 → i.val = r - 1 →
    (schedule key)[i] = sel 48 pc2 ((keyHalves key r).1 ++ (keyHalves key r).2)

/-- R111: the closed form; after sixteen rounds the halves are back at C0 and D0; the sixteen offsets are distinct;
the composition law of rotations. -/
def Obligations.HalvesAreCumulativeRotations : Prop :=
  (∀ (key : KeyValue) (r : Nat), r ≤ 16 →
      keyHalves key r = ((c0 key).rotateLeft (cumShift r % 28), (d0 key).rotateLeft (cumShift r % 28))) ∧
    (∀ key : KeyValue, keyHalves key 16 = (c0 key, d0 key)) ∧
    (List.range 16).map (fun r => cumShift (r + 1) % 28) = [1, 2, 4, 6, 8, 10, 12, 14, 15, 17, 19, 21, 23, 25, 27, 0] ∧
    ∀ (x : HalfKey) (a b : Nat), (a = 1 ∨ a = 2) → (b = 1 ∨ b = 2) →
      rotl28 (rotl28 x a) b = x.rotateLeft ((a + b) % 28)

/-- R106: PC1 takes exactly the positions that are no multiple of 8, each once, so a key's other bits change neither
the schedule nor the result of any block command. -/
def Obligations.IgnoredKeyBitsChangeNothing : Prop :=
  (∀ p, 1 ≤ p → p ≤ 64 → (pc1Left ++ pc1Right).count p = if p % 8 = 0 then 0 else 1) ∧
    (pc1Left ++ pc1Right).length = 56 ∧
    ∀ key mask : KeyValue, mask &&& usedKeyBits = 0 →
      schedule (key ^^^ mask) = schedule key ∧
        ∀ (block : Block) (dir : Direction),
          transform (schedule (key ^^^ mask)) block dir = transform (schedule key) block dir

/-- R109: PC2 takes the upper 24 subkey bits from C only and the lower 24 from D only, repeats no entry, and leaves
out the eight positions the rule lists. -/
def Obligations.SubkeyHalvesComeFromCAndD : Prop :=
  (∀ (c c' d d' : HalfKey) (q : Nat),
      (1 ≤ q → q ≤ 24 → pos (pc2Select c d) q = pos (pc2Select c d') q) ∧
        (25 ≤ q → q ≤ 48 → pos (pc2Select c d) q = pos (pc2Select c' d) q)) ∧
    (∀ p ∈ pc2.take 24, 1 ≤ p ∧ p ≤ 28) ∧ (∀ p ∈ pc2.drop 24, 29 ≤ p ∧ p ≤ 56) ∧ pc2.Nodup ∧
    ∀ p, 1 ≤ p → p ≤ 56 → (p ∉ pc2 ↔ p ∈ [9, 18, 22, 25, 35, 38, 43, 54])

/-- R112: every subkey bit is a copy of the key bit that KEYPOS names, and no named position is a multiple of 8. -/
def Obligations.SubkeyBitsAreKeyBits : Prop :=
  ∀ (key : KeyValue) (i : StoreIndex) (q : Nat), 1 ≤ q → q ≤ 48 →
    pos (schedule key)[i] q = pos key ((keyPos.getD i.val []).getD (q - 1) 0) ∧
      (keyPos.getD i.val []).getD (q - 1) 0 % 8 ≠ 0

/-- R112: Schedule is linear over exclusive or, and what it gives for the all-zero and the all-one key. -/
def Obligations.ScheduleIsLinear : Prop :=
  (∀ (a b : KeyValue) (i : StoreIndex), (schedule (a ^^^ b))[i] = (schedule a)[i] ^^^ (schedule b)[i]) ∧
    (∀ i : StoreIndex, (schedule 0)[i] = 0) ∧
    ∀ i : StoreIndex, (schedule 0xFFFFFFFFFFFFFFFF)[i] = 0xFFFFFFFFFFFF

/-! ## Round function -/

/-- R172: the structure of E in one formula (written with + 30 for - 2 modulo 32, so that no subtraction is cut off). -/
def Obligations.ExpansionTakesNeighbours : Prop :=
  ∀ (half : Half) (g t : Nat), g ≤ 7 → 1 ≤ t → t ≤ 6 →
    pos (expand half) (6 * g + t) = pos half ((4 * g + t + 30) % 32 + 1)

/-- R173, R171: position q of the mixed value is position E[q] of the half exclusive-or position q of the subkey. -/
def Obligations.KeyMixingByPosition : Prop :=
  ∀ (half : Half) (subkey : Subkey) (q : Nat), 1 ≤ q → q ≤ 48 →
    pos (keyMix half subkey) q = xor (pos half (expansion.getD (q - 1) 0)) (pos subkey q)

/-- R174, R184: output j of the substitution is table Sj at group j. -/
def Obligations.GroupFeedsItsOwnTable : Prop :=
  ∀ (x : Subkey) (j : Nat), j ≤ 7 →
    nibble (substitute x) j = sbox j (group x j) ∧
      (sbox j (group x j)).toNat = (sFlat.getD j []).getD (group x j).toNat 0

/-- R175: the flat and the standard layout hold the same value for every group of every table. -/
def Obligations.SubstitutionLayoutsAgree : Prop :=
  ∀ (j : Nat) (b : Group), j ≤ 7 → sbox j b = sboxStandard j b

/-- R187: every row of every standard table holds each of 0..15 exactly once, every table sums to 480 and takes each
value four times, and the first and last entries. -/
def Obligations.SubstitutionTablesAreBalanced : Prop :=
  (∀ t ∈ sStd, t.length = 4 ∧ ∀ row ∈ t, row.length = 16 ∧ ∀ v, v < 16 → row.count v = 1) ∧
    (∀ t ∈ sFlat, t.length = 64 ∧ t.sum = 480 ∧ ∀ v, v < 16 → t.count v = 4) ∧
    sFlat.map (fun t => t.getD 0 0) = [14, 15, 10, 7, 2, 12, 4, 13] ∧
    sFlat.map (fun t => t.getD 63 0) = [13, 9, 12, 14, 3, 13, 12, 11]

/-- R185, R186: position q of the round function's result is position P[q] of the substitution output. -/
def Obligations.RoundResultIsPermutedSubstitution : Prop :=
  ∀ (half : Half) (subkey : Subkey) (q : Nat), 1 ≤ q → q ≤ 32 →
    pos (roundFunction half subkey) q = pos (substitute (keyMix half subkey)) (permP.getD (q - 1) 0)

/-- R186: `Round(~R, ~k) = Round(R, k)`. -/
def Obligations.RoundIgnoresDoubleComplement : Prop :=
  ∀ (half : Half) (subkey : Subkey), roundFunction (~~~half) (~~~subkey) = roundFunction half subkey

/-! ## Block transform -/

/-- R147: IP and FP are mutual inverses, as tables and as functions. -/
def Obligations.PermutationsAreMutualInverses : Prop :=
  (∀ q, 1 ≤ q → q ≤ 64 → fp.getD (ip.getD (q - 1) 0 - 1) 0 = q ∧ ip.getD (fp.getD (q - 1) 0 - 1) 0 = q) ∧
    ∀ b : Block, sel 64 fp (sel 64 ip b) = b ∧ sel 64 ip (sel 64 fp b) = b

/-- R148: for any sixteen subkeys, decryption undoes encryption and encryption undoes decryption. -/
def Obligations.TransformRoundTrip : Prop :=
  ∀ (k : Vector Subkey 16) (block : Block),
    transform k (transform k block .encrypt) .decrypt = block ∧
      transform k (transform k block .decrypt) .encrypt = block

/-- R157 (a): complementing key and block complements the result. -/
def Obligations.ComplementationLaw : Prop :=
  ∀ (key : KeyValue) (block : Block) (dir : Direction),
    transform (schedule (~~~key)) (~~~block) dir = ~~~(transform (schedule key) block dir)

/-- R157 (b): under a schedule that reads the same both ways the two directions are one function, and encrypting
twice returns the block. -/
def Obligations.PalindromicScheduleIsSelfInverse : Prop :=
  ∀ k : Vector Subkey 16, (∀ i : StoreIndex, k[i] = k[i.rev]) → ∀ block : Block,
    transform k block .encrypt = transform k block .decrypt ∧
      transform k (transform k block .encrypt) .encrypt = block

/-- R156: the source's rounds against FIPS 46-3's recurrence: the halves after round i are `(L(i+1), R(i+1))` for i ≤
14, `(R16, L16)` after round 15, and the output is `FP(R16 ‖ L16)`. -/
def Obligations.TransformIsFipsRecurrence : Prop :=
  (∀ (k : Vector Subkey 16) (dir : Direction) (l r : Half),
      (∀ n, n ≤ 15 → blockHalves k dir l r n = fipsHalves k dir l r n) ∧
        blockHalves k dir l r 16 = ((fipsHalves k dir l r 16).2, (fipsHalves k dir l r 16).1)) ∧
    ∀ (k : Vector Subkey 16) (block : Block) (dir : Direction),
      transform k block dir =
        sel 64 fp
          ((fipsHalves k dir (hi32 (sel 64 ip block)) (lo32 (sel 64 ip block)) 16).2 ++
            (fipsHalves k dir (hi32 (sel 64 ip block)) (lo32 (sel 64 ip block)) 16).1)

/-- Section 8 of the source: the known-answer vector, in both directions. -/
def Obligations.KnownAnswerVector : Prop :=
  transform (schedule 0x133457799BBCDFF1) 0x0123456789ABCDEF .encrypt = 0x85E813540F0AB405 ∧
    transform (schedule 0x133457799BBCDFF1) 0x85E813540F0AB405 .decrypt = 0x0123456789ABCDEF

/-! ## Commands at the transaction level -/

/-- R155: an idle block runs NOP, and nothing changes but that an edge passes. (Whole commands are one step of the
model, and `clock` is its own field: log entries 2, 4.) (With BUSY = 0 and PH not IDLE, which only a block that was
never reset meets, the acceptance alone takes place: log entry 16.) -/
def Obligations.NopCompletes : Prop :=
  ∀ (data : BitVec 64) (s : State), s.busy = false → exec (.nop data) s = .next { s with clock := s.clock + 1 }

/-- R120: an idle block runs LOADKEY, whatever SV and DV are: KEY, K and SV are written, C and D are back at C0 and
D0, and nothing else changes but the clock (the model's own, by LAT_KEY) and the sequencer, which is idle. (Whole
commands are one step of the model, and `clock` and the paces are its own fields: log entries 2, 4, 8.) (With BUSY =
0 and PH not IDLE, which only a block that was never reset meets, the acceptance alone takes place: log entry 16.) -/
def Obligations.LoadkeyCompletes : Prop :=
  ∀ (key : KeyValue) (s : State), s.busy = false →
    exec (.loadkey key) s = .next { s with
      key := key, k := schedule key, sv := true, busy := false, c := c0 key, d := d0 key
      rnd := 0, ph := .idle, clock := s.clock + paceLatency s.keyPace }

/-- R150: an idle block with a valid schedule runs ENCRYPT: DOUT and DV are written, L, R and DIR are left as the
last round leaves them, and nothing else changes but the clock (by LAT_BLK) and the sequencer, which is idle. (Whole
commands are one step of the model, and `clock` and the paces are its own fields: log entries 2, 4, 8.) (With BUSY =
0 and PH not IDLE, which only a block that was never reset meets, the acceptance alone takes place: log entry 16.) -/
def Obligations.EncryptCompletes : Prop :=
  ∀ (block : Block) (s : State), s.busy = false → s.sv = true →
    exec (.encrypt block) s = .next { s with
      dout := transform s.k block .encrypt, dv := true, busy := false, dir := .encrypt
      l := hi32 (initialPerm (transform s.k block .encrypt))
      r := lo32 (initialPerm (transform s.k block .encrypt))
      rnd := 0, ph := .idle, clock := s.clock + paceLatency s.blockPace }

/-- R151: as ENCRYPT, with direction 1. (Whole commands are one step of the model, and `clock` and the paces are its
own fields: log entries 2, 4, 8.) (With BUSY = 0 and PH not IDLE, which only a block that was never reset meets, the
acceptance alone takes place: log entry 16.) -/
def Obligations.DecryptCompletes : Prop :=
  ∀ (block : Block) (s : State), s.busy = false → s.sv = true →
    exec (.decrypt block) s = .next { s with
      dout := transform s.k block .decrypt, dv := true, busy := false, dir := .decrypt
      l := hi32 (initialPerm (transform s.k block .decrypt))
      r := lo32 (initialPerm (transform s.k block .decrypt))
      rnd := 0, ph := .idle, clock := s.clock + paceLatency s.blockPace }

/-- R31: an accepted command writes the registers its row of the table names and no other; the host's list is no
register and stays. The clock, the model's own, advances. (Whole commands are one step of the model, and `clock` is
its own field: log entries 2, 4.) (With BUSY = 0 and PH not IDLE, which only a block that was never reset meets, the
acceptance alone takes place: log entry 16.) -/
def Obligations.CommandsWriteOnlyTheirRegisters : Prop :=
  ∀ s t : State,
    (∀ x, cmdReady (Instr.nop x).op s = true → exec (.nop x) s = .next t → t = { s with clock := t.clock }) ∧
      (∀ x, cmdReady (Instr.loadkey x).op s = true → exec (.loadkey x) s = .next t →
        t = { s with key := t.key, k := t.k, sv := t.sv, busy := t.busy, c := t.c, d := t.d, rnd := t.rnd, ph := t.ph
                     clock := t.clock }) ∧
      (∀ x, cmdReady (Instr.encrypt x).op s = true → exec (.encrypt x) s = .next t →
        t = { s with dout := t.dout, dv := t.dv, busy := t.busy, dir := t.dir, l := t.l, r := t.r, rnd := t.rnd
                     ph := t.ph, clock := t.clock }) ∧
      (∀ x, cmdReady (Instr.decrypt x).op s = true → exec (.decrypt x) s = .next t →
        t = { s with dout := t.dout, dv := t.dv, busy := t.busy, dir := t.dir, l := t.l, r := t.r, rnd := t.rnd
                     ph := t.ph, clock := t.clock }) ∧
      resetStep s = { s with sv := (resetStep s).sv, busy := (resetStep s).busy, dv := (resetStep s).dv
                             rnd := (resetStep s).rnd, ph := (resetStep s).ph }

/-- R203: a block command before a key is not accepted: it acts as an edge without a command, whatever its operand,
and an idle block to which it is presented stays as it is for ever, the command still presented. (The two levels in
one step, and the fields `clock`, `host`, `age` and the paces, are the model's: log entries 2, 3, 4, 8.) -/
def Obligations.BlockCommandWaitsForKey : Prop :=
  ∀ (block : Block) (s : State), s.sv = false →
    (cmdReady (Instr.encrypt block).op s = false ∧ exec (.encrypt block) s = .next (quietEdge s)) ∧
      (cmdReady (Instr.decrypt block).op s = false ∧ exec (.decrypt block) s = .next (quietEdge s)) ∧
      (s.ph = .idle → ∀ (i : Instr) (rest : List HostEvent), i = .encrypt block ∨ i = .decrypt block →
        s.host = .command (encode i) :: rest →
          ∀ n : Nat, runSteps n s = .next { s with clock := s.clock + n })

/-- R77: TRYKEY is LOADKEY then DECRYPT: from any idle state it ends with the transform under the new key's schedule.
(Whole commands are one step of the model, and `clock` is its own field: log entries 2, 4.) (With BUSY = 0 and PH not
IDLE, which only a block that was never reset meets, the acceptance alone takes place: log entry 16.) -/
def Obligations.TryKeyDecryptsUnderTheNewKey : Prop :=
  ∀ (key : KeyValue) (block : Block) (seen : List Subkey) (s : State), s.busy = false →
    ∃ t, runLine (.tryKey key block) seen s = .ended t seen ∧ t.key = key ∧ t.k = schedule key ∧ t.sv = true ∧
      t.dout = transform (schedule key) block .decrypt ∧ t.dv = true ∧ t.busy = false

/-- R240, R241: in one implementation the number of edges a command takes depends on its kind only, and no step
changes it; ENCRYPT and DECRYPT take the same. R242: the reference timing takes 17 edges and does round e at edge e.
(Whole commands are one step of the model, and `clock` and the paces are its own fields: log entries 2, 4, 8.) -/
def Obligations.LatencyByKindOnly : Prop :=
  (∀ (i j : Instr) (s t u v : State), SameImplementation s u →
      i.op = j.op ∨ (i.op.getLsbD 1 = true ∧ j.op.getLsbD 1 = true) →
      cmdReady i.op s = true → cmdReady j.op u = true → exec i s = .next t → exec j u = .next v →
        t.clock - s.clock = v.clock - u.clock ∧ s.clock < t.clock) ∧
    (∀ s t : State, step s = .next t → SameImplementation s t) ∧
    paceLatency referencePace = 17 ∧ ∀ e, e ≤ 16 → roundsBy referencePace e = e

/-! ## Steps, edges and micro-steps -/

/-- A step that finds a command word presented runs the decoded command; a ready one is taken from the host's list
and one that is not ready stays. The command of a table word is the one the very next step finds; how a table word is
numbered and cut, and that withFetchWord stands for the host presenting the word, are the model's own choices (log
entries 9, 10). (The two levels in one step, and the fields `clock`, `host`, `age` and the paces, are the model's:
log entries 2, 3, 4, 8.) -/
def Obligations.StepRunsDecodedCommand : Prop :=
  (∀ (s : State) (w : CommandWord) (rest : List HostEvent), s.host = .command w :: rest →
      step s = exec (decode w) (if cmdReady (decode w).op s then { s with host := rest } else s)) ∧
    ∀ (s : State) (i : Instr),
      step (s.withFetchWord 72 (encode i).toNat) =
        exec i (if cmdReady i.op s then s else { s with host := .command (encode i) :: s.host })

/-- R78: when `cmd_ready` is 1, and that an edge accepts a command exactly when `rst = 0`, `cmd_valid = 1` and
`cmd_ready = 1`; at any other edge with `rst = 0` the command port has no effect, as when the host does nothing. R35,
R155: an idle block stays as it is at an edge that accepts a NOP or nothing. (`clock`, `host`, `age` and the paces
are the model's own fields: log entries 3, 4, 8.) (With BUSY = 0 and PH not IDLE, which only a block that was never
reset meets, the acceptance alone takes place: log entry 16.) -/
def Obligations.AcceptanceRule : Prop :=
  (∀ (op : OpCode) (s : State), cmdReady op s = true ↔ s.busy = false ∧ (op.getLsbD 1 = false ∨ s.sv = true)) ∧
    (∀ (s : State) (p : Pins) (rest : List HostEvent), s.host = .edge p :: rest → p.rst = false →
      (p.cmdValid = true ∧ cmdReady p.cmdOp s = true →
        step s = .next (acceptEdge (decode (p.cmdOp ++ p.cmdData)) { s with host := rest, clock := s.clock + 1 })) ∧
      (¬(p.cmdValid = true ∧ cmdReady p.cmdOp s = true) → step s = .next (quietEdge { s with host := rest }))) ∧
    (∀ s : State, s.host = [] → step s = .next (quietEdge s)) ∧
    (∀ s : State, s.ph = .idle → quietEdge s = { s with clock := s.clock + 1 }) ∧
    (∀ (s : State) (p : Pins) (rest : List HostEvent), s.host = .edge p :: rest → p.rst = false → s.ph = .idle →
      p.cmdOp = 0b00 ∨ ¬(p.cmdValid = true ∧ cmdReady p.cmdOp s = true) →
        step s = .next { s with host := rest, clock := s.clock + 1 }) ∧
    ∀ s : State, s.host = [] → s.ph = .idle → step s = .next { s with clock := s.clock + 1 }

/-- R202, R78: the two coincidences. Reset wins over a micro-step and a command; a command presented to a busy block
is not accepted, and the edge does what it does with nothing presented. A whole command presented to a busy block,
whichever it is and whatever SV is, does the same. (The two levels in one step, and the fields `clock`, `host`, `age`
and the paces, are the model's: log entries 2, 3, 4, 8.) -/
def Obligations.CoincidencesAtOneEdge : Prop :=
  (∀ (s : State) (p : Pins) (rest : List HostEvent), s.host = .edge p :: rest →
    (p.rst = true → step s = .next (resetStep { s with host := rest, clock := s.clock + 1 })) ∧
      (p.rst = false → s.busy = true → step s = .next (quietEdge { s with host := rest }))) ∧
    ∀ (i : Instr) (s : State), s.busy = true → cmdReady i.op s = false ∧ exec i s = .next (quietEdge s)

/-- R121: micro-step KS0, and R241: after it the rounds that the implementation performs at the same edge, none in
the reference timing. (`clock`, `host`, `age` and the paces are the model's own fields: log entries 3, 4, 8.) (With
BUSY = 0 and PH not IDLE, which only a block that was never reset meets, the acceptance alone takes place: log entry
16.) -/
def Obligations.LoadkeyAcceptingEdge : Prop :=
  ∀ (s : State) (p : Pins) (rest : List HostEvent) (key : KeyValue),
    s.host = .edge p :: rest → Presents p (.loadkey key) → s.busy = false →
      step s = .next (microStep^[roundsBy s.keyPace 0] { s with
        key := key, c := sel 28 pc1Left key, d := sel 28 pc1Right key, sv := false, busy := true, ph := .ks, rnd := 1
        age := 0, clock := s.clock + 1, host := rest })

/-- R122: micro-step KSr; and R241: an edge with `rst = 0`, whatever the command port holds, performs as many
micro-steps as bring the rounds done to where the pace has them. (`clock`, `host`, `age` and the paces are the
model's own fields: log entries 3, 4, 8.) -/
def Obligations.ScheduleMicroStep : Prop :=
  (∀ (s : State) (c' d' : HalfKey) (i : StoreIndex), s.ph = .ks → s.rnd.toNat = i.val + 1 →
      c' = rotl28 s.c (shiftAmount s.rnd.toNat) → d' = rotl28 s.d (shiftAmount s.rnd.toNat) →
        microStep s = if s.rnd.toNat < 16 then
          { s with c := c', d := d', k := s.k.set i (sel 48 pc2 (c' ++ d')), rnd := s.rnd + 1 }
        else
          { s with c := c', d := d', k := s.k.set i (sel 48 pc2 (c' ++ d')), rnd := 0, ph := .idle, busy := false
                   sv := true }) ∧
    ∀ (s : State) (p : Pins) (rest : List HostEvent) (i : StoreIndex),
      s.host = .edge p :: rest → p.rst = false → s.busy = true → s.ph = .ks → s.rnd.toNat = i.val + 1 →
        step s = .next (microStep^[roundsBy s.keyPace (s.age + 1) - i.val]
          { s with age := s.age + 1, clock := s.clock + 1, host := rest })

/-- R152: micro-step BTL, for both block commands, and R241: after it the rounds that the implementation performs at
the same edge, none in the reference timing. (`clock`, `host`, `age` and the paces are the model's own fields: log
entries 3, 4, 8.) (With BUSY = 0 and PH not IDLE, which only a block that was never reset meets, the acceptance alone
takes place: log entry 16.) -/
def Obligations.BlockAcceptingEdge : Prop :=
  ∀ (s : State) (p : Pins) (rest : List HostEvent) (i : Instr) (dir : Direction) (block : Block),
    i = .encrypt block ∧ dir = .encrypt ∨ i = .decrypt block ∧ dir = .decrypt →
      s.host = .edge p :: rest → Presents p i → s.busy = false → s.sv = true →
        step s = .next (microStep^[roundsBy s.blockPace 0] { s with
          l := hi32 (sel 64 ip block), r := lo32 (sel 64 ip block), dir := dir, dv := false, busy := true, ph := .bt
          rnd := 0, age := 0, clock := s.clock + 1, host := rest })

/-- R153: micro-step BTR(i); and R241: an edge with `rst = 0`, whatever the command port holds, performs as many
micro-steps as bring the rounds done to where the pace has them. (`clock`, `host`, `age` and the paces are the
model's own fields: log entries 3, 4, 8.) -/
def Obligations.BlockMicroStep : Prop :=
  (∀ (s : State) (i : StoreIndex) (n : Half), s.ph = .bt → s.rnd.toNat = i.val →
      n = roundFunction s.r (if s.dir = .encrypt then s.k[i] else s.k[i.rev]) ^^^ s.l →
        microStep s = if i.val < 15 then
          { s with l := s.r, r := n, rnd := s.rnd + 1 }
        else
          { s with l := n, dout := sel 64 fp (n ++ s.r), dv := true, busy := false, ph := .idle, rnd := 0 }) ∧
    ∀ (s : State) (p : Pins) (rest : List HostEvent) (i : StoreIndex),
      s.host = .edge p :: rest → p.rst = false → s.busy = true → s.ph = .bt → s.rnd.toNat = i.val →
        step s = .next (microStep^[roundsBy s.blockPace (s.age + 1) - i.val]
          { s with age := s.age + 1, clock := s.clock + 1, host := rest })

/-- R220: the reset step, from any state whatever, one before the first reset included, with any values at the other
ports. (`clock` and `host` are the model's own fields, and the time before the first reset is as log entry 14 says:
log entries 3, 4.) -/
def Obligations.ResetStepClearsFlagsOnly : Prop :=
  ∀ (s : State) (p : Pins) (rest : List HostEvent), s.host = .edge p :: rest → p.rst = true →
    step s = .next { s with
      sv := false, busy := false, dv := false, ph := .idle, rnd := 0, clock := s.clock + 1, host := rest }

/-- R223: after any reset step the block is idle, takes NOP and LOADKEY and does not take ENCRYPT or DECRYPT; and the
state after reset has the flags of R39. (The registers R39 leaves unspecified are not mentioned: log entry 1.) -/
def Obligations.AfterResetOnlyNopAndLoadkey : Prop :=
  (∀ s : State, cmdReady 0b00 (resetStep s) = true ∧ cmdReady 0b01 (resetStep s) = true ∧
      cmdReady 0b10 (resetStep s) = false ∧ cmdReady 0b11 (resetStep s) = false) ∧
    State.reset.sv = false ∧ State.reset.busy = false ∧ State.reset.dv = false ∧ State.reset.ph = .idle ∧
    State.reset.rnd = 0

/-- R221: a reset n edges after the edge that accepted a command, before its last edge, ends it at once. After a
LOADKEY the words of K of the rounds done (n in the reference timing) are new and the others as they were, with SV =
0; after a block command DOUT holds the previous result, with DV = 0. (`clock`, `host`, `age` and the paces are the
model's own fields: log entries 3, 4, 8.) (With BUSY = 0 and PH not IDLE, which only a block that was never reset
meets, the acceptance alone takes place: log entry 16.) -/
def Obligations.ResetAbandonsTheCommand : Prop :=
  ∀ (s : State) (p q : Pins) (ps : List Pins) (rest : List HostEvent) (i : Instr),
    Presents p i → cmdReady i.op s = true → NoReset ps → q.rst = true →
      s.host = .edge p :: edges ps ++ .edge q :: rest →
        (∀ key, i = .loadkey key → ps.length + 1 < paceLatency s.keyPace →
          ∃ t, runSteps (ps.length + 2) s = .next t ∧
          t.sv = false ∧ t.busy = false ∧ t.dv = false ∧ t.ph = .idle ∧ t.host = rest ∧ t.dout = s.dout ∧
          ∀ j : StoreIndex, t.k[j] = if j.val < roundsBy s.keyPace ps.length then (schedule key)[j] else s.k[j]) ∧
        (∀ block, i = .encrypt block ∨ i = .decrypt block → ps.length + 1 < paceLatency s.blockPace →
          ∃ t, runSteps (ps.length + 2) s = .next t ∧
          t.sv = false ∧ t.busy = false ∧ t.dv = false ∧ t.ph = .idle ∧ t.host = rest ∧
          t.dout = s.dout ∧ t.k = s.k)

/-- R26, R27, R28: after the accepting edge and any number of further edges before the last one of the latency, BUSY
is 1; a LOADKEY keeps SV at 0 and DOUT and DV as they were, a block command keeps DV at 0 and SV, K, KEY and DOUT as
they were. (`clock`, `host`, `age` and the paces are the model's own fields: log entries 3, 4, 8.) (With BUSY = 0 and
PH not IDLE, which only a block that was never reset meets, the acceptance alone takes place: log entry 16.) -/
def Obligations.FlagsWhileACommandRuns : Prop :=
  ∀ (s : State) (p : Pins) (ps : List Pins) (rest : List HostEvent) (i : Instr),
    Presents p i → cmdReady i.op s = true → NoReset ps → s.host = .edge p :: edges ps ++ rest →
      (∀ key, i = .loadkey key → ps.length + 1 < paceLatency s.keyPace →
        ∃ t, runSteps (ps.length + 1) s = .next t ∧
        t.busy = true ∧ t.sv = false ∧ t.dv = s.dv ∧ t.dout = s.dout ∧ t.key = key) ∧
      (∀ block, i = .encrypt block ∨ i = .decrypt block → ps.length + 1 < paceLatency s.blockPace →
        ∃ t, runSteps (ps.length + 1) s = .next t ∧
        t.busy = true ∧ t.dv = false ∧ t.sv = true ∧ t.dout = s.dout ∧ t.k = s.k ∧ t.key = s.key)

/-- R123, R14, R241: from any state with BUSY = 0, the accepting edge of a LOADKEY and the other edges of its
latency, however many they are and however the rounds are spread over them, with anything at the ports but a reset,
reach exactly the registers that the whole command reaches. (The two levels in one step, and the fields `clock`,
`host`, `age` and the paces, are the model's: log entries 2, 3, 4, 8.) (With BUSY = 0 and PH not IDLE, which only a
block that was never reset meets, the acceptance alone takes place: log entry 16.) -/
def Obligations.LoadkeyLevelsAgree : Prop :=
  ∀ (s : State) (p : Pins) (ps : List Pins) (rest : List HostEvent) (key : KeyValue),
    s.busy = false → Presents p (.loadkey key) → NoReset ps → ps.length + 1 = paceLatency s.keyPace →
      s.host = .edge p :: edges ps ++ rest →
        ∃ t u, runSteps (paceLatency s.keyPace) s = .next t ∧ exec (.loadkey key) s = .next u ∧
          SameRegisters t u ∧ t.host = rest ∧ t.clock = u.clock

/-- R154, R14, R241: the same for ENCRYPT and DECRYPT from any state with BUSY = 0 and SV = 1. (The two levels in one
step, and the fields `clock`, `host`, `age` and the paces, are the model's: log entries 2, 3, 4, 8.) (With BUSY = 0
and PH not IDLE, which only a block that was never reset meets, the acceptance alone takes place: log entry 16.) -/
def Obligations.BlockLevelsAgree : Prop :=
  ∀ (s : State) (p : Pins) (ps : List Pins) (rest : List HostEvent) (i : Instr) (block : Block),
    i = .encrypt block ∨ i = .decrypt block → s.busy = false → s.sv = true → Presents p i → NoReset ps →
      ps.length + 1 = paceLatency s.blockPace → s.host = .edge p :: edges ps ++ rest →
        ∃ t u, runSteps (paceLatency s.blockPace) s = .next t ∧ exec i s = .next u ∧
          SameRegisters t u ∧ t.host = rest ∧ t.clock = u.clock

/-! ## The whole machine -/

/-- R37 items 1 to 4, R33, R34: every step keeps the invariant, whatever the host does and however the implementation
spreads the rounds over edges. (The two levels in one step, and the fields `clock`, `host`, `age` and the paces, are
the model's: log entries 2, 3, 4, 8.) -/
def Obligations.StepKeepsInvariant : Prop :=
  ∀ s t : State, Inv s → step s = .next t → Inv t

/-- R37, R220: the invariant holds after reset, and after an edge with `rst = 1` from any state whatever,
`State.powerUp` among them. (`clock` and `host` are the model's own fields, and the time before the first reset is as
log entry 14 says: log entries 3, 4.) -/
def Obligations.ResetHasInvariant : Prop :=
  Inv State.reset ∧ (∀ s : State, Inv (resetStep s)) ∧
    ∀ (s : State) (p : Pins) (rest : List HostEvent), s.host = .edge p :: rest → p.rst = true →
      ∃ t, step s = .next t ∧ Inv t

/-- R200, R205: no step stops and no run stops, from any state whatever, `State.powerUp` among them; and from an edge
with `rst = 1` on, the invariant holds at the end of every run. (The two levels in one step, `clock` and `host` are
the model's: log entries 2, 3, 4; the time before the first reset and edges without a rule are as log entries 7 and
14 say.) -/
def Obligations.NoStepStops : Prop :=
  (∀ s : State, ∃ t, step s = .next t) ∧ (∀ (n : Nat) (s : State), ∃ t, runSteps n s = .next t) ∧
    ∀ (n : Nat) (s : State), resets s → ∃ t, runSteps (n + 1) s = .next t ∧ Inv t

/-- R35, R240: a command in progress always ends: with no reset among the events to come, BUSY is 0 after as many
steps as its latency still has edges, and is 1 before, whatever else the host does. (`clock`, `host`, `age` and the
paces are the model's own fields: log entries 3, 4, 8.) -/
def Obligations.EveryCommandEnds : Prop :=
  ∀ s : State, Inv s → s.busy = true → NoResetEvent s.host →
    ∃ n t, 1 ≤ n ∧
      (s.ph = .ks ∧ s.age + 1 + n = paceLatency s.keyPace ∨ s.ph = .bt ∧ s.age + 1 + n = paceLatency s.blockPace) ∧
      runSteps n s = .next t ∧ t.busy = false ∧ ∀ m u, m < n → runSteps m s = .next u → u.busy = true

/-- R34: the only ways the phase changes. (The two levels in one step, and the fields `clock`, `host`, `age` and the
paces, are the model's: log entries 2, 3, 4, 8.) -/
def Obligations.PhaseChangesOnlyAsListed : Prop :=
  ∀ s t : State, Inv s → step s = .next t → s.ph ≠ t.ph →
    (s.ph = .idle ∧ t.ph = .ks ∧ ∃ key, acceptedBy s = some (.loadkey key)) ∨
      (s.ph = .idle ∧ t.ph = .bt ∧
        ∃ block, acceptedBy s = some (.encrypt block) ∨ acceptedBy s = some (.decrypt block)) ∨
      (s.ph = .ks ∧ t.ph = .idle ∧ (keyCompletes s ∨ resets s)) ∨
      (s.ph = .bt ∧ t.ph = .idle ∧ (blockCompletes s ∨ resets s))

/-- R21, R22: KEY changes only when a LOADKEY is accepted, to its operand; K changes only while a LOADKEY is in
progress, when a whole LOADKEY is run, or at an edge that accepts one and performs rounds at once. (The two levels in
one step, and the fields `clock`, `host`, `age` and the paces, are the model's: log entries 2, 3, 4, 8.) -/
def Obligations.OnlyLoadkeyWritesTheKey : Prop :=
  ∀ s t : State, Inv s → step s = .next t →
    (s.key ≠ t.key → acceptedBy s = some (.loadkey t.key)) ∧
      (s.k ≠ t.k → s.ph = .ks ∨
        ∃ key, acceptedBy s = some (.loadkey key) ∧ (wholeCommand s ∨ 0 < roundsBy s.keyPace 0))

/-- R23: DOUT changes only at the completion of an ENCRYPT or DECRYPT, which sets DV. (The two levels in one step,
and the fields `clock`, `host`, `age` and the paces, are the model's: log entries 2, 3, 4, 8.) -/
def Obligations.OnlyBlockCompletionWritesResult : Prop :=
  ∀ s t : State, Inv s → step s = .next t → s.dout ≠ t.dout →
    t.dv = true ∧ t.busy = false ∧
      (blockCompletes s ∨
        (wholeCommand s ∨ paceLatency s.blockPace = 1) ∧
          ∃ block, acceptedBy s = some (.encrypt block) ∨ acceptedBy s = some (.decrypt block))

/-- R26, R28: what may change SV and DV: reset, acceptance and completion. (The two levels in one step, and the
fields `clock`, `host`, `age` and the paces, are the model's: log entries 2, 3, 4, 8.) -/
def Obligations.FlagsChangeOnlyAsListed : Prop :=
  ∀ s t : State, Inv s → step s = .next t →
    (s.sv = true → t.sv = false → resets s ∨ ∃ key, acceptedBy s = some (.loadkey key)) ∧
      (s.sv = false → t.sv = true → keyCompletes s ∨
        (wholeCommand s ∨ paceLatency s.keyPace = 1) ∧ ∃ key, acceptedBy s = some (.loadkey key)) ∧
      (s.dv = true → t.dv = false →
        resets s ∨ ∃ block, acceptedBy s = some (.encrypt block) ∨ acceptedBy s = some (.decrypt block)) ∧
      (s.dv = false → t.dv = true → blockCompletes s ∨
        (wholeCommand s ∨ paceLatency s.blockPace = 1) ∧
          ∃ block, acceptedBy s = some (.encrypt block) ∨ acceptedBy s = some (.decrypt block))

/-- R36, R149: no flag and no sequencer register depends on data: two machines with the same control, whatever keys,
blocks and registers they hold, have the same control after any number of steps, and stop for the same reason if they
stop. (At an edge for which no rule gives a micro-step, which only a block that was never reset meets, it holds
because the free values depend on the clock only: log entry 7.) (The two levels in one step, and the fields `clock`,
`host`, `age` and the paces, are the model's: log entries 2, 3, 4, 8.) -/
def Obligations.ControlIsIndependentOfData : Prop :=
  ∀ (n : Nat) (s t : State), SameControl s t →
    OutcomesRelated SameControl (runSteps n s) (runSteps n t)

/-- R37 item 6, R39: no register that has not been written since the last reset ever reaches a port. Two machines of
one implementation that agree on what has been written take every step alike and show the same outputs; so do two
machines with any registers whatever, reset under the same host, in every cycle of every run. (While SV = 0 or DV = 0
the data ports are equal because the free values depend on the clock and the address only: log entries 5, 6.) (The
two levels in one step, and the fields `clock`, `host`, `age` and the paces, are the model's: log entries 2, 3, 4,
8.) -/
def Obligations.UnwrittenRegistersAreNeverSeen : Prop :=
  (∀ s t : State, AgreeOnWritten s t → SequencerOk s →
      OutcomesRelated (fun u v => AgreeOnWritten u v ∧ SequencerOk u ∧ ∀ p : Pins, outputs p u = outputs p v)
        (step s) (step t)) ∧
    ∀ (n : Nat) (s t : State), SameImplementation s t → s.clock = t.clock → s.host = t.host →
      OutcomesRelated (fun u v => AgreeOnWritten u v ∧ ∀ p : Pins, outputs p u = outputs p v)
        (runSteps n (resetStep s)) (runSteps n (resetStep t))

/-- R52, R37 item 1: while SV = 1 the subkey port shows the schedule of KEY at every index, in every phase. -/
def Obligations.SubkeyPortShowsTheSchedule : Prop :=
  ∀ (s : State) (p : Pins), Inv s → s.sv = true →
    (outputs p s).skData = (schedule s.key)[storeIndex p.skAddr] ∧ (storeIndex p.skAddr).val = p.skAddr.toNat

/-- R25: STATUS is BUSY at bit 2, SV at bit 1, DV at bit 0, each on its own port. R71, R78: the port `cmd_ready` is 1
exactly when a command of the presented kind can be accepted. -/
def Obligations.StatusFieldsAreTheFlags : Prop :=
  ∀ (s : State) (p : Pins),
    (statusWord s).getLsbD 2 = s.busy ∧ (statusWord s).getLsbD 1 = s.sv ∧ (statusWord s).getLsbD 0 = s.dv ∧
      (outputs p s).busy = s.busy ∧ (outputs p s).keyValid = s.sv ∧ (outputs p s).rspValid = s.dv ∧
      (s.dv = true → (outputs p s).rspData = s.dout) ∧
      (outputs p s).cmdReady = cmdReady p.cmdOp s ∧
      ((outputs p s).cmdReady = true ↔ s.busy = false ∧ (p.cmdOp.getLsbD 1 = false ∨ s.sv = true))

/-- R211: the step of one block depends on no other block and changes no other, and steps of two blocks come out the
same in either order; in a system of any number of blocks, so of N_INSTANCES. (Which block steps next is outside the
system: log entry 11.) -/
def Obligations.InstancesShareNothing : Prop :=
  ∀ (n : Nat) (system other after : Vector State n) (j : Fin n), stepInstance j system = .next after →
    (∀ i : Fin n, i ≠ j → after[i] = system[i]) ∧
      (other[j] = system[j] → ∃ after', stepInstance j other = .next after' ∧ after'[j] = after[j]) ∧
      ∀ (i : Fin n) (after' : Vector State n), i ≠ j → stepInstance i system = .next after' →
        ∃ both, stepInstance i after = .next both ∧ stepInstance j after' = .next both
end

