-- ==== Sys2Proof/Laws/Bits.lean ====
section
/-! SUPPORT. The laws of positions, selection, concatenation, halves and rotation (spec/00_scope.md R8 to R11). -/

namespace Sys2Proof.Machine

theorem eq_of_pos {n : Nat} {a b : BitVec n} (h : ∀ p, 1 ≤ p → p ≤ n → pos a p = pos b p) : a = b := by
  refine BitVec.eq_of_getLsbD_eq fun i hi => ?_
  have := h (n - i) (by omega) (by omega)
  simpa [pos, show n - (n - i) = i by omega] using this

theorem pos_eq_getLsbD {n : Nat} (a : BitVec n) (p : Nat) : pos a p = a.getLsbD (n - p) := rfl

@[simp] theorem pos_xor {n : Nat} (a b : BitVec n) (p : Nat) : pos (a ^^^ b) p = xor (pos a p) (pos b p) := by
  simp [pos]

theorem pos_not {n : Nat} (a : BitVec n) {p : Nat} (h1 : 1 ≤ p) (h2 : p ≤ n) : pos (~~~a) p = !pos a p := by
  simp [pos, show n - p < n by omega]

@[simp] theorem pos_zero {n p : Nat} : pos (0#n) p = false := by simp [pos]

/-- Bit j of a selection that stands above `acc`. -/
theorem selOnto_testBit {n : Nat} (v : BitVec n) (table : List Nat) (acc j : Nat) :
    (selOnto v table acc).testBit j =
      if j < table.length then pos v (table.getD (table.length - 1 - j) 0) else acc.testBit (j - table.length) := by
  induction table generalizing acc with
  | nil => simp [selOnto]
  | cons p ps ih =>
    rw [selOnto, ih]
    rcases lt_trichotomy j ps.length with h | h | h
    · simp only [h, if_true, List.length_cons, show j < ps.length + 1 by omega]
      rw [show ps.length + 1 - 1 - j = (ps.length - 1 - j) + 1 by omega]
      simp
    · subst h
      cases hb : pos v p <;> simp [hb, Nat.testBit_zero]
    · obtain ⟨k, rfl⟩ := Nat.exists_eq_add_of_lt h
      simp only [List.length_cons, show ¬ ps.length + k + 1 < ps.length by omega,
        show ¬ ps.length + k + 1 < ps.length + 1 by omega, if_false]
      rw [show ps.length + k + 1 - ps.length = k + 1 by omega,
        show ps.length + k + 1 - (ps.length + 1) = k by omega, Nat.testBit_succ]
      congr 1
      cases pos v p <;> simp; omega

/-- Selection in positions (R9). -/
theorem pos_sel {m n : Nat} {table : List Nat} (v : BitVec n) (hm : table.length = m) {q : Nat} (h1 : 1 ≤ q)
    (h2 : q ≤ m) : pos (sel m table v) q = pos v (table.getD (q - 1) 0) := by
  have hq : m - q < table.length := by omega
  rw [pos_eq_getLsbD, sel, BitVec.getLsbD_ofNat, selOnto_testBit]
  simp [hq, show m - q < m by omega, show table.length - 1 - (m - q) = q - 1 by omega]

theorem sel_xor {m n : Nat} {table : List Nat} (a b : BitVec n) (hm : table.length = m) :
    sel m table (a ^^^ b) = sel m table a ^^^ sel m table b := by
  refine eq_of_pos fun q h1 h2 => ?_
  simp [pos_sel _ hm h1 h2]

/-- A table's entry lies in its input when every entry does. -/
theorem getD_in_range {table : List Nat} {n i : Nat} (h : ∀ p ∈ table, 1 ≤ p ∧ p ≤ n) (hi : i < table.length) :
    1 ≤ table.getD i 0 ∧ table.getD i 0 ≤ n := by
  rw [List.getD_eq_getElem _ _ hi]
  exact h _ (List.getElem_mem hi)

theorem sel_not {m n : Nat} {table : List Nat} (a : BitVec n) (hm : table.length = m)
    (hr : ∀ p ∈ table, 1 ≤ p ∧ p ≤ n) : sel m table (~~~a) = ~~~(sel m table a) := by
  refine eq_of_pos fun q h1 h2 => ?_
  obtain ⟨g1, g2⟩ := getD_in_range (i := q - 1) hr (by omega)
  rw [pos_not _ h1 h2, pos_sel _ hm h1 h2, pos_sel _ hm h1 h2, pos_not _ g1 g2]

/-- C ‖ D in bit indices (R81). -/
theorem keyHalves_bit (c d : HalfKey) (i : Nat) :
    (c ++ d : KeyHalves).getLsbD i = if i < 28 then d.getLsbD i else c.getLsbD (i - 28) := by
  have h := BitVec.getLsbD_append (x := c) (y := d) (i := i)
  cases hi : decide (i < 28) <;> simp_all

/-- C ‖ D in positions: C at 1..28, D at 29..56 (R81). -/
theorem pos_keyHalves (c d : HalfKey) {p : Nat} (h1 : 1 ≤ p) (h2 : p ≤ 56) :
    pos (c ++ d : KeyHalves) p = if p ≤ 28 then pos c p else pos d (p - 28) := by
  rw [pos_eq_getLsbD, keyHalves_bit]
  by_cases h : p ≤ 28
  · rw [if_neg (by omega), if_pos h, pos_eq_getLsbD, show 56 - p - 28 = 28 - p by omega]
  · rw [if_pos (by omega), if_neg h, pos_eq_getLsbD, show 56 - p = 28 - (p - 28) by omega]

/-- L ‖ R in bit indices (R81). -/
theorem block_bit (l r : Half) (i : Nat) :
    (l ++ r : Block).getLsbD i = if i < 32 then r.getLsbD i else l.getLsbD (i - 32) := by
  have h := BitVec.getLsbD_append (x := l) (y := r) (i := i)
  cases hi : decide (i < 32) <;> simp_all

theorem hi32_bit (v : Block) (i : Nat) : (hi32 v).getLsbD i = (decide (i < 32) && v.getLsbD (32 + i)) := by
  simp [hi32]

theorem lo32_bit (v : Block) (i : Nat) : (lo32 v).getLsbD i = (decide (i < 32) && v.getLsbD i) := by
  simp [lo32]

@[simp] theorem hi32_append (l r : Half) : hi32 (l ++ r) = l := by
  refine BitVec.eq_of_getLsbD_eq fun i hi => ?_
  rw [hi32_bit, block_bit]
  simp [hi]

@[simp] theorem lo32_append (l r : Half) : lo32 (l ++ r) = r := by
  refine BitVec.eq_of_getLsbD_eq fun i hi => ?_
  rw [lo32_bit, block_bit]
  simp [hi]

@[simp] theorem hi32_append_lo32 (v : Block) : hi32 v ++ lo32 v = v := by
  refine BitVec.eq_of_getLsbD_eq fun i hi => ?_
  rw [block_bit, hi32_bit, lo32_bit]
  by_cases h : i < 32
  · simp [h]
  · simp [h, show i - 32 < 32 by omega, show 32 + (i - 32) = i by omega]

@[simp] theorem hi32_not (v : Block) : hi32 (~~~v) = ~~~(hi32 v) := by
  refine BitVec.eq_of_getLsbD_eq fun i hi => ?_
  simp only [hi32_bit, BitVec.getLsbD_not]
  simp [hi, show 32 + i < 64 by omega]

@[simp] theorem lo32_not (v : Block) : lo32 (~~~v) = ~~~(lo32 v) := by
  refine BitVec.eq_of_getLsbD_eq fun i hi => ?_
  simp only [lo32_bit, BitVec.getLsbD_not]
  simp [hi, show i < 64 by omega]

theorem append_not (l r : Half) : (~~~l ++ ~~~r : Block) = ~~~(l ++ r : Block) := by
  refine BitVec.eq_of_getLsbD_eq fun i hi => ?_
  rw [BitVec.getLsbD_not, block_bit, block_bit]
  by_cases h : i < 32
  · simp [h, hi]
  · simp [h, hi, show i - 32 < 32 by omega]

/-- Rotation in positions (R11). -/
theorem pos_rotl28 (x : HalfKey) {s p : Nat} (hs : s = 1 ∨ s = 2) (h1 : 1 ≤ p) (h2 : p ≤ 28) :
    pos (rotl28 x s) p = pos x ((p - 1 + s) % 28 + 1) := by
  simp only [pos_eq_getLsbD, rotl28, BitVec.getLsbD_or, BitVec.getLsbD_shiftLeft, BitVec.getLsbD_ushiftRight]
  by_cases h : p - 1 + s < 28
  · rw [Nat.mod_eq_of_lt h, BitVec.getLsbD_of_ge x (28 - s + (28 - p)) (by omega)]
    simp [show 28 - p < 28 by omega, show ¬ 28 - p < s by omega, show 28 - p - s = 28 - (p - 1 + s + 1) by omega]
  · rw [show (p - 1 + s) % 28 = p - 1 + s - 28 by omega]
    simp [show 28 - p < 28 by omega, show 28 - p < s by omega,
      show 28 - s + (28 - p) = 28 - (p - 1 + s - 28 + 1) by omega]

/-- Rotation by any amount below the width, in positions. -/
theorem pos_rotateLeft (x : HalfKey) {a p : Nat} (ha : a < 28) (h1 : 1 ≤ p) (h2 : p ≤ 28) :
    pos (x.rotateLeft a) p = pos x ((p - 1 + a) % 28 + 1) := by
  simp only [pos_eq_getLsbD, BitVec.getLsbD_rotateLeft, Nat.mod_eq_of_lt ha]
  by_cases h : p - 1 + a < 28
  · rw [Nat.mod_eq_of_lt h]
    simp [show 28 - p < 28 by omega, show ¬ 28 - p < a by omega, show 28 - p - a = 28 - (p - 1 + a + 1) by omega]
  · rw [show (p - 1 + a) % 28 = p - 1 + a - 28 by omega]
    simp [show 28 - p < a by omega, show 28 - a + (28 - p) = 28 - (p - 1 + a - 28 + 1) by omega]

theorem rotl28_not (x : HalfKey) {s : Nat} (hs : s = 1 ∨ s = 2) : rotl28 (~~~x) s = ~~~(rotl28 x s) := by
  refine eq_of_pos fun p h1 h2 => ?_
  have : (p - 1 + s) % 28 < 28 := Nat.mod_lt _ (by omega)
  rw [pos_not _ h1 h2, pos_rotl28 _ hs h1 h2, pos_rotl28 _ hs h1 h2, pos_not _ (by omega) (by omega)]

theorem rotl28_xor (x y : HalfKey) {s : Nat} (hs : s = 1 ∨ s = 2) :
    rotl28 (x ^^^ y) s = rotl28 x s ^^^ rotl28 y s := by
  refine eq_of_pos fun p h1 h2 => ?_
  simp [pos_rotl28 _ hs h1 h2]

end Sys2Proof.Machine
end

