-- ==== Sys2Proof/Laws/RoundFunction.lean ====
section
/-! SUPPORT. The laws of the round function (spec/42_round_function.md). -/

namespace Sys2Proof.Machine

theorem expansion_length : expansion.length = 48 := rfl
theorem permP_length : permP.length = 32 := rfl
theorem expansion_range : ∀ p ∈ expansion, 1 ≤ p ∧ p ≤ 32 := by decide
theorem permP_range : ∀ p ∈ permP, 1 ≤ p ∧ p ≤ 32 := by decide

theorem pos_expand (half : Half) {q : Nat} (h1 : 1 ≤ q) (h2 : q ≤ 48) :
    pos (expand half) q = pos half (expansion.getD (q - 1) 0) := pos_sel _ expansion_length h1 h2

theorem pos_permute (s : Half) {q : Nat} (h1 : 1 ≤ q) (h2 : q ≤ 32) :
    pos (permute s) q = pos s (permP.getD (q - 1) 0) := pos_sel _ permP_length h1 h2

@[simp] theorem expand_not (half : Half) : expand (~~~half) = ~~~(expand half) :=
  sel_not _ expansion_length expansion_range

/-- Two 4-bit-aligned pieces side by side, read back at bit 4a. -/
theorem extract_append_high {a b : Nat} (x : BitVec a) (y : BitVec b) (start len : Nat) (h : b ≤ start) :
    (x ++ y).extractLsb' start len = x.extractLsb' (start - b) len := by
  refine BitVec.eq_of_getLsbD_eq fun i hi => ?_
  simp [BitVec.getLsbD_append, hi, show ¬ start + i < b by omega, show start + i - b = start - b + i by omega]

theorem extract_append_low {a b : Nat} (x : BitVec a) (y : BitVec b) (start len : Nat) (h : start + len ≤ b) :
    (x ++ y).extractLsb' start len = y.extractLsb' start len := by
  refine BitVec.eq_of_getLsbD_eq fun i hi => ?_
  simp [BitVec.getLsbD_append, hi, show start + i < b by omega]

end Sys2Proof.Machine
end

