-- ==== Sys2Proof/Laws/State.lean ====
section
/-! SUPPORT. One lemma per field per update of State, true by rfl, and the laws of the store and of resets. -/

namespace Sys2Proof.Machine

@[simp] theorem setSequencer_key (p : Phase) (v : BitVec 5) (s : State) : (setSequencer p v s).key = s.key := rfl
@[simp] theorem setSequencer_k (p : Phase) (v : BitVec 5) (s : State) : (setSequencer p v s).k = s.k := rfl
@[simp] theorem setSequencer_sv (p : Phase) (v : BitVec 5) (s : State) : (setSequencer p v s).sv = s.sv := rfl
@[simp] theorem setSequencer_busy (p : Phase) (v : BitVec 5) (s : State) : (setSequencer p v s).busy = s.busy := rfl
@[simp] theorem setSequencer_dout (p : Phase) (v : BitVec 5) (s : State) : (setSequencer p v s).dout = s.dout := rfl
@[simp] theorem setSequencer_dv (p : Phase) (v : BitVec 5) (s : State) : (setSequencer p v s).dv = s.dv := rfl
@[simp] theorem setSequencer_dir (p : Phase) (v : BitVec 5) (s : State) : (setSequencer p v s).dir = s.dir := rfl
@[simp] theorem setSequencer_c (p : Phase) (v : BitVec 5) (s : State) : (setSequencer p v s).c = s.c := rfl
@[simp] theorem setSequencer_d (p : Phase) (v : BitVec 5) (s : State) : (setSequencer p v s).d = s.d := rfl
@[simp] theorem setSequencer_l (p : Phase) (v : BitVec 5) (s : State) : (setSequencer p v s).l = s.l := rfl
@[simp] theorem setSequencer_r (p : Phase) (v : BitVec 5) (s : State) : (setSequencer p v s).r = s.r := rfl
@[simp] theorem setSequencer_rnd (p : Phase) (v : BitVec 5) (s : State) : (setSequencer p v s).rnd = v := rfl
@[simp] theorem setSequencer_ph (p : Phase) (v : BitVec 5) (s : State) : (setSequencer p v s).ph = p := rfl
@[simp] theorem setSequencer_keyPace (p : Phase) (v : BitVec 5) (s : State) :
    (setSequencer p v s).keyPace = s.keyPace := rfl
@[simp] theorem setSequencer_blockPace (p : Phase) (v : BitVec 5) (s : State) :
    (setSequencer p v s).blockPace = s.blockPace := rfl
@[simp] theorem setSequencer_age (p : Phase) (v : BitVec 5) (s : State) : (setSequencer p v s).age = s.age := rfl
@[simp] theorem setSequencer_clock (p : Phase) (v : BitVec 5) (s : State) :
    (setSequencer p v s).clock = s.clock := rfl
@[simp] theorem setSequencer_host (p : Phase) (v : BitVec 5) (s : State) : (setSequencer p v s).host = s.host := rfl

@[simp] theorem passEdges_key (n : Nat) (s : State) : (passEdges n s).key = s.key := rfl
@[simp] theorem passEdges_k (n : Nat) (s : State) : (passEdges n s).k = s.k := rfl
@[simp] theorem passEdges_sv (n : Nat) (s : State) : (passEdges n s).sv = s.sv := rfl
@[simp] theorem passEdges_busy (n : Nat) (s : State) : (passEdges n s).busy = s.busy := rfl
@[simp] theorem passEdges_dout (n : Nat) (s : State) : (passEdges n s).dout = s.dout := rfl
@[simp] theorem passEdges_dv (n : Nat) (s : State) : (passEdges n s).dv = s.dv := rfl
@[simp] theorem passEdges_dir (n : Nat) (s : State) : (passEdges n s).dir = s.dir := rfl
@[simp] theorem passEdges_c (n : Nat) (s : State) : (passEdges n s).c = s.c := rfl
@[simp] theorem passEdges_d (n : Nat) (s : State) : (passEdges n s).d = s.d := rfl
@[simp] theorem passEdges_l (n : Nat) (s : State) : (passEdges n s).l = s.l := rfl
@[simp] theorem passEdges_r (n : Nat) (s : State) : (passEdges n s).r = s.r := rfl
@[simp] theorem passEdges_rnd (n : Nat) (s : State) : (passEdges n s).rnd = s.rnd := rfl
@[simp] theorem passEdges_ph (n : Nat) (s : State) : (passEdges n s).ph = s.ph := rfl
@[simp] theorem passEdges_keyPace (n : Nat) (s : State) : (passEdges n s).keyPace = s.keyPace := rfl
@[simp] theorem passEdges_blockPace (n : Nat) (s : State) : (passEdges n s).blockPace = s.blockPace := rfl
@[simp] theorem passEdges_age (n : Nat) (s : State) : (passEdges n s).age = s.age := rfl
@[simp] theorem passEdges_clock (n : Nat) (s : State) : (passEdges n s).clock = s.clock + n := rfl
@[simp] theorem passEdges_host (n : Nat) (s : State) : (passEdges n s).host = s.host := rfl

@[simp] theorem tick_key (s : State) : (tick s).key = s.key := rfl
@[simp] theorem tick_k (s : State) : (tick s).k = s.k := rfl
@[simp] theorem tick_sv (s : State) : (tick s).sv = s.sv := rfl
@[simp] theorem tick_busy (s : State) : (tick s).busy = s.busy := rfl
@[simp] theorem tick_dout (s : State) : (tick s).dout = s.dout := rfl
@[simp] theorem tick_dv (s : State) : (tick s).dv = s.dv := rfl
@[simp] theorem tick_dir (s : State) : (tick s).dir = s.dir := rfl
@[simp] theorem tick_c (s : State) : (tick s).c = s.c := rfl
@[simp] theorem tick_d (s : State) : (tick s).d = s.d := rfl
@[simp] theorem tick_l (s : State) : (tick s).l = s.l := rfl
@[simp] theorem tick_r (s : State) : (tick s).r = s.r := rfl
@[simp] theorem tick_rnd (s : State) : (tick s).rnd = s.rnd := rfl
@[simp] theorem tick_ph (s : State) : (tick s).ph = s.ph := rfl
@[simp] theorem tick_keyPace (s : State) : (tick s).keyPace = s.keyPace := rfl
@[simp] theorem tick_blockPace (s : State) : (tick s).blockPace = s.blockPace := rfl
@[simp] theorem tick_age (s : State) : (tick s).age = if s.ph = .idle then s.age else s.age + 1 := rfl
@[simp] theorem tick_clock (s : State) : (tick s).clock = s.clock := rfl
@[simp] theorem tick_host (s : State) : (tick s).host = s.host := rfl

@[simp] theorem startPace_key (s : State) : (startPace s).key = s.key := rfl
@[simp] theorem startPace_k (s : State) : (startPace s).k = s.k := rfl
@[simp] theorem startPace_sv (s : State) : (startPace s).sv = s.sv := rfl
@[simp] theorem startPace_busy (s : State) : (startPace s).busy = s.busy := rfl
@[simp] theorem startPace_dout (s : State) : (startPace s).dout = s.dout := rfl
@[simp] theorem startPace_dv (s : State) : (startPace s).dv = s.dv := rfl
@[simp] theorem startPace_dir (s : State) : (startPace s).dir = s.dir := rfl
@[simp] theorem startPace_c (s : State) : (startPace s).c = s.c := rfl
@[simp] theorem startPace_d (s : State) : (startPace s).d = s.d := rfl
@[simp] theorem startPace_l (s : State) : (startPace s).l = s.l := rfl
@[simp] theorem startPace_r (s : State) : (startPace s).r = s.r := rfl
@[simp] theorem startPace_rnd (s : State) : (startPace s).rnd = s.rnd := rfl
@[simp] theorem startPace_ph (s : State) : (startPace s).ph = s.ph := rfl
@[simp] theorem startPace_keyPace (s : State) : (startPace s).keyPace = s.keyPace := rfl
@[simp] theorem startPace_blockPace (s : State) : (startPace s).blockPace = s.blockPace := rfl
@[simp] theorem startPace_age (s : State) : (startPace s).age = 0 := rfl
@[simp] theorem startPace_clock (s : State) : (startPace s).clock = s.clock := rfl
@[simp] theorem startPace_host (s : State) : (startPace s).host = s.host := rfl

@[simp] theorem popHost_key (s : State) : (popHost s).key = s.key := rfl
@[simp] theorem popHost_k (s : State) : (popHost s).k = s.k := rfl
@[simp] theorem popHost_sv (s : State) : (popHost s).sv = s.sv := rfl
@[simp] theorem popHost_busy (s : State) : (popHost s).busy = s.busy := rfl
@[simp] theorem popHost_dout (s : State) : (popHost s).dout = s.dout := rfl
@[simp] theorem popHost_dv (s : State) : (popHost s).dv = s.dv := rfl
@[simp] theorem popHost_dir (s : State) : (popHost s).dir = s.dir := rfl
@[simp] theorem popHost_c (s : State) : (popHost s).c = s.c := rfl
@[simp] theorem popHost_d (s : State) : (popHost s).d = s.d := rfl
@[simp] theorem popHost_l (s : State) : (popHost s).l = s.l := rfl
@[simp] theorem popHost_r (s : State) : (popHost s).r = s.r := rfl
@[simp] theorem popHost_rnd (s : State) : (popHost s).rnd = s.rnd := rfl
@[simp] theorem popHost_ph (s : State) : (popHost s).ph = s.ph := rfl
@[simp] theorem popHost_keyPace (s : State) : (popHost s).keyPace = s.keyPace := rfl
@[simp] theorem popHost_blockPace (s : State) : (popHost s).blockPace = s.blockPace := rfl
@[simp] theorem popHost_age (s : State) : (popHost s).age = s.age := rfl
@[simp] theorem popHost_clock (s : State) : (popHost s).clock = s.clock := rfl
@[simp] theorem popHost_host (s : State) : (popHost s).host = s.host.tail := rfl

@[simp] theorem flagsKeyAccepted_key (s : State) : (flagsKeyAccepted s).key = s.key := rfl
@[simp] theorem flagsKeyAccepted_k (s : State) : (flagsKeyAccepted s).k = s.k := rfl
@[simp] theorem flagsKeyAccepted_sv (s : State) : (flagsKeyAccepted s).sv = false := rfl
@[simp] theorem flagsKeyAccepted_busy (s : State) : (flagsKeyAccepted s).busy = true := rfl
@[simp] theorem flagsKeyAccepted_dout (s : State) : (flagsKeyAccepted s).dout = s.dout := rfl
@[simp] theorem flagsKeyAccepted_dv (s : State) : (flagsKeyAccepted s).dv = s.dv := rfl
@[simp] theorem flagsKeyAccepted_dir (s : State) : (flagsKeyAccepted s).dir = s.dir := rfl
@[simp] theorem flagsKeyAccepted_c (s : State) : (flagsKeyAccepted s).c = s.c := rfl
@[simp] theorem flagsKeyAccepted_d (s : State) : (flagsKeyAccepted s).d = s.d := rfl
@[simp] theorem flagsKeyAccepted_l (s : State) : (flagsKeyAccepted s).l = s.l := rfl
@[simp] theorem flagsKeyAccepted_r (s : State) : (flagsKeyAccepted s).r = s.r := rfl
@[simp] theorem flagsKeyAccepted_rnd (s : State) : (flagsKeyAccepted s).rnd = s.rnd := rfl
@[simp] theorem flagsKeyAccepted_ph (s : State) : (flagsKeyAccepted s).ph = s.ph := rfl
@[simp] theorem flagsKeyAccepted_keyPace (s : State) : (flagsKeyAccepted s).keyPace = s.keyPace := rfl
@[simp] theorem flagsKeyAccepted_blockPace (s : State) : (flagsKeyAccepted s).blockPace = s.blockPace := rfl
@[simp] theorem flagsKeyAccepted_age (s : State) : (flagsKeyAccepted s).age = s.age := rfl
@[simp] theorem flagsKeyAccepted_clock (s : State) : (flagsKeyAccepted s).clock = s.clock := rfl
@[simp] theorem flagsKeyAccepted_host (s : State) : (flagsKeyAccepted s).host = s.host := rfl

@[simp] theorem flagsKeyDone_key (s : State) : (flagsKeyDone s).key = s.key := rfl
@[simp] theorem flagsKeyDone_k (s : State) : (flagsKeyDone s).k = s.k := rfl
@[simp] theorem flagsKeyDone_sv (s : State) : (flagsKeyDone s).sv = true := rfl
@[simp] theorem flagsKeyDone_busy (s : State) : (flagsKeyDone s).busy = false := rfl
@[simp] theorem flagsKeyDone_dout (s : State) : (flagsKeyDone s).dout = s.dout := rfl
@[simp] theorem flagsKeyDone_dv (s : State) : (flagsKeyDone s).dv = s.dv := rfl
@[simp] theorem flagsKeyDone_dir (s : State) : (flagsKeyDone s).dir = s.dir := rfl
@[simp] theorem flagsKeyDone_c (s : State) : (flagsKeyDone s).c = s.c := rfl
@[simp] theorem flagsKeyDone_d (s : State) : (flagsKeyDone s).d = s.d := rfl
@[simp] theorem flagsKeyDone_l (s : State) : (flagsKeyDone s).l = s.l := rfl
@[simp] theorem flagsKeyDone_r (s : State) : (flagsKeyDone s).r = s.r := rfl
@[simp] theorem flagsKeyDone_rnd (s : State) : (flagsKeyDone s).rnd = s.rnd := rfl
@[simp] theorem flagsKeyDone_ph (s : State) : (flagsKeyDone s).ph = s.ph := rfl
@[simp] theorem flagsKeyDone_keyPace (s : State) : (flagsKeyDone s).keyPace = s.keyPace := rfl
@[simp] theorem flagsKeyDone_blockPace (s : State) : (flagsKeyDone s).blockPace = s.blockPace := rfl
@[simp] theorem flagsKeyDone_age (s : State) : (flagsKeyDone s).age = s.age := rfl
@[simp] theorem flagsKeyDone_clock (s : State) : (flagsKeyDone s).clock = s.clock := rfl
@[simp] theorem flagsKeyDone_host (s : State) : (flagsKeyDone s).host = s.host := rfl

@[simp] theorem flagsBlockAccepted_key (s : State) : (flagsBlockAccepted s).key = s.key := rfl
@[simp] theorem flagsBlockAccepted_k (s : State) : (flagsBlockAccepted s).k = s.k := rfl
@[simp] theorem flagsBlockAccepted_sv (s : State) : (flagsBlockAccepted s).sv = s.sv := rfl
@[simp] theorem flagsBlockAccepted_busy (s : State) : (flagsBlockAccepted s).busy = true := rfl
@[simp] theorem flagsBlockAccepted_dout (s : State) : (flagsBlockAccepted s).dout = s.dout := rfl
@[simp] theorem flagsBlockAccepted_dv (s : State) : (flagsBlockAccepted s).dv = false := rfl
@[simp] theorem flagsBlockAccepted_dir (s : State) : (flagsBlockAccepted s).dir = s.dir := rfl
@[simp] theorem flagsBlockAccepted_c (s : State) : (flagsBlockAccepted s).c = s.c := rfl
@[simp] theorem flagsBlockAccepted_d (s : State) : (flagsBlockAccepted s).d = s.d := rfl
@[simp] theorem flagsBlockAccepted_l (s : State) : (flagsBlockAccepted s).l = s.l := rfl
@[simp] theorem flagsBlockAccepted_r (s : State) : (flagsBlockAccepted s).r = s.r := rfl
@[simp] theorem flagsBlockAccepted_rnd (s : State) : (flagsBlockAccepted s).rnd = s.rnd := rfl
@[simp] theorem flagsBlockAccepted_ph (s : State) : (flagsBlockAccepted s).ph = s.ph := rfl
@[simp] theorem flagsBlockAccepted_keyPace (s : State) : (flagsBlockAccepted s).keyPace = s.keyPace := rfl
@[simp] theorem flagsBlockAccepted_blockPace (s : State) : (flagsBlockAccepted s).blockPace = s.blockPace := rfl
@[simp] theorem flagsBlockAccepted_age (s : State) : (flagsBlockAccepted s).age = s.age := rfl
@[simp] theorem flagsBlockAccepted_clock (s : State) : (flagsBlockAccepted s).clock = s.clock := rfl
@[simp] theorem flagsBlockAccepted_host (s : State) : (flagsBlockAccepted s).host = s.host := rfl

@[simp] theorem flagsBlockDone_key (s : State) : (flagsBlockDone s).key = s.key := rfl
@[simp] theorem flagsBlockDone_k (s : State) : (flagsBlockDone s).k = s.k := rfl
@[simp] theorem flagsBlockDone_sv (s : State) : (flagsBlockDone s).sv = s.sv := rfl
@[simp] theorem flagsBlockDone_busy (s : State) : (flagsBlockDone s).busy = false := rfl
@[simp] theorem flagsBlockDone_dout (s : State) : (flagsBlockDone s).dout = s.dout := rfl
@[simp] theorem flagsBlockDone_dv (s : State) : (flagsBlockDone s).dv = true := rfl
@[simp] theorem flagsBlockDone_dir (s : State) : (flagsBlockDone s).dir = s.dir := rfl
@[simp] theorem flagsBlockDone_c (s : State) : (flagsBlockDone s).c = s.c := rfl
@[simp] theorem flagsBlockDone_d (s : State) : (flagsBlockDone s).d = s.d := rfl
@[simp] theorem flagsBlockDone_l (s : State) : (flagsBlockDone s).l = s.l := rfl
@[simp] theorem flagsBlockDone_r (s : State) : (flagsBlockDone s).r = s.r := rfl
@[simp] theorem flagsBlockDone_rnd (s : State) : (flagsBlockDone s).rnd = s.rnd := rfl
@[simp] theorem flagsBlockDone_ph (s : State) : (flagsBlockDone s).ph = s.ph := rfl
@[simp] theorem flagsBlockDone_keyPace (s : State) : (flagsBlockDone s).keyPace = s.keyPace := rfl
@[simp] theorem flagsBlockDone_blockPace (s : State) : (flagsBlockDone s).blockPace = s.blockPace := rfl
@[simp] theorem flagsBlockDone_age (s : State) : (flagsBlockDone s).age = s.age := rfl
@[simp] theorem flagsBlockDone_clock (s : State) : (flagsBlockDone s).clock = s.clock := rfl
@[simp] theorem flagsBlockDone_host (s : State) : (flagsBlockDone s).host = s.host := rfl

@[simp] theorem flagsReset_key (s : State) : (flagsReset s).key = s.key := rfl
@[simp] theorem flagsReset_k (s : State) : (flagsReset s).k = s.k := rfl
@[simp] theorem flagsReset_sv (s : State) : (flagsReset s).sv = false := rfl
@[simp] theorem flagsReset_busy (s : State) : (flagsReset s).busy = false := rfl
@[simp] theorem flagsReset_dout (s : State) : (flagsReset s).dout = s.dout := rfl
@[simp] theorem flagsReset_dv (s : State) : (flagsReset s).dv = false := rfl
@[simp] theorem flagsReset_dir (s : State) : (flagsReset s).dir = s.dir := rfl
@[simp] theorem flagsReset_c (s : State) : (flagsReset s).c = s.c := rfl
@[simp] theorem flagsReset_d (s : State) : (flagsReset s).d = s.d := rfl
@[simp] theorem flagsReset_l (s : State) : (flagsReset s).l = s.l := rfl
@[simp] theorem flagsReset_r (s : State) : (flagsReset s).r = s.r := rfl
@[simp] theorem flagsReset_rnd (s : State) : (flagsReset s).rnd = s.rnd := rfl
@[simp] theorem flagsReset_ph (s : State) : (flagsReset s).ph = s.ph := rfl
@[simp] theorem flagsReset_keyPace (s : State) : (flagsReset s).keyPace = s.keyPace := rfl
@[simp] theorem flagsReset_blockPace (s : State) : (flagsReset s).blockPace = s.blockPace := rfl
@[simp] theorem flagsReset_age (s : State) : (flagsReset s).age = s.age := rfl
@[simp] theorem flagsReset_clock (s : State) : (flagsReset s).clock = s.clock := rfl
@[simp] theorem flagsReset_host (s : State) : (flagsReset s).host = s.host := rfl

@[simp] theorem writeK_key (s : State) (i : StoreIndex) (w : Subkey) : (writeK s i w).key = s.key := rfl
@[simp] theorem writeK_k (s : State) (i : StoreIndex) (w : Subkey) : (writeK s i w).k = s.k.set i w := rfl
@[simp] theorem writeK_sv (s : State) (i : StoreIndex) (w : Subkey) : (writeK s i w).sv = s.sv := rfl
@[simp] theorem writeK_busy (s : State) (i : StoreIndex) (w : Subkey) : (writeK s i w).busy = s.busy := rfl
@[simp] theorem writeK_dout (s : State) (i : StoreIndex) (w : Subkey) : (writeK s i w).dout = s.dout := rfl
@[simp] theorem writeK_dv (s : State) (i : StoreIndex) (w : Subkey) : (writeK s i w).dv = s.dv := rfl
@[simp] theorem writeK_dir (s : State) (i : StoreIndex) (w : Subkey) : (writeK s i w).dir = s.dir := rfl
@[simp] theorem writeK_c (s : State) (i : StoreIndex) (w : Subkey) : (writeK s i w).c = s.c := rfl
@[simp] theorem writeK_d (s : State) (i : StoreIndex) (w : Subkey) : (writeK s i w).d = s.d := rfl
@[simp] theorem writeK_l (s : State) (i : StoreIndex) (w : Subkey) : (writeK s i w).l = s.l := rfl
@[simp] theorem writeK_r (s : State) (i : StoreIndex) (w : Subkey) : (writeK s i w).r = s.r := rfl
@[simp] theorem writeK_rnd (s : State) (i : StoreIndex) (w : Subkey) : (writeK s i w).rnd = s.rnd := rfl
@[simp] theorem writeK_ph (s : State) (i : StoreIndex) (w : Subkey) : (writeK s i w).ph = s.ph := rfl
@[simp] theorem writeK_keyPace (s : State) (i : StoreIndex) (w : Subkey) : (writeK s i w).keyPace = s.keyPace := rfl
@[simp] theorem writeK_blockPace (s : State) (i : StoreIndex) (w : Subkey) :
    (writeK s i w).blockPace = s.blockPace := rfl
@[simp] theorem writeK_age (s : State) (i : StoreIndex) (w : Subkey) : (writeK s i w).age = s.age := rfl
@[simp] theorem writeK_clock (s : State) (i : StoreIndex) (w : Subkey) : (writeK s i w).clock = s.clock := rfl
@[simp] theorem writeK_host (s : State) (i : StoreIndex) (w : Subkey) : (writeK s i w).host = s.host := rfl

@[simp] theorem resetStep_key (s : State) : (resetStep s).key = s.key := rfl
@[simp] theorem resetStep_k (s : State) : (resetStep s).k = s.k := rfl
@[simp] theorem resetStep_sv (s : State) : (resetStep s).sv = false := rfl
@[simp] theorem resetStep_busy (s : State) : (resetStep s).busy = false := rfl
@[simp] theorem resetStep_dout (s : State) : (resetStep s).dout = s.dout := rfl
@[simp] theorem resetStep_dv (s : State) : (resetStep s).dv = false := rfl
@[simp] theorem resetStep_dir (s : State) : (resetStep s).dir = s.dir := rfl
@[simp] theorem resetStep_c (s : State) : (resetStep s).c = s.c := rfl
@[simp] theorem resetStep_d (s : State) : (resetStep s).d = s.d := rfl
@[simp] theorem resetStep_l (s : State) : (resetStep s).l = s.l := rfl
@[simp] theorem resetStep_r (s : State) : (resetStep s).r = s.r := rfl
@[simp] theorem resetStep_rnd (s : State) : (resetStep s).rnd = 0 := rfl
@[simp] theorem resetStep_ph (s : State) : (resetStep s).ph = .idle := rfl
@[simp] theorem resetStep_keyPace (s : State) : (resetStep s).keyPace = s.keyPace := rfl
@[simp] theorem resetStep_blockPace (s : State) : (resetStep s).blockPace = s.blockPace := rfl
@[simp] theorem resetStep_age (s : State) : (resetStep s).age = s.age := rfl
@[simp] theorem resetStep_clock (s : State) : (resetStep s).clock = s.clock := rfl
@[simp] theorem resetStep_host (s : State) : (resetStep s).host = s.host := rfl

@[simp] theorem withRegisters_keyPace (draw : (name : RegisterName) → BitVec name.width) (s : State) :
    (s.withRegisters draw).keyPace = s.keyPace := rfl
@[simp] theorem withRegisters_blockPace (draw : (name : RegisterName) → BitVec name.width) (s : State) :
    (s.withRegisters draw).blockPace = s.blockPace := rfl
@[simp] theorem withRegisters_age (draw : (name : RegisterName) → BitVec name.width) (s : State) :
    (s.withRegisters draw).age = s.age := rfl
@[simp] theorem withRegisters_clock (draw : (name : RegisterName) → BitVec name.width) (s : State) :
    (s.withRegisters draw).clock = s.clock := rfl
@[simp] theorem withRegisters_host (draw : (name : RegisterName) → BitVec name.width) (s : State) :
    (s.withRegisters draw).host = s.host := rfl

@[simp] theorem noRule_keyPace (s : State) : (noRule s).keyPace = s.keyPace := rfl
@[simp] theorem noRule_blockPace (s : State) : (noRule s).blockPace = s.blockPace := rfl
@[simp] theorem noRule_clock (s : State) : (noRule s).clock = s.clock := rfl
@[simp] theorem noRule_host (s : State) : (noRule s).host = s.host := rfl

/-- A store word reads as what was written to it, and no other word changes (R51). -/
theorem readK_writeK (s : State) (i j : StoreIndex) (w : Subkey) :
    readK (writeK s i w) j = if j = i then w else readK s j := by
  simp only [readK, writeK, Fin.getElem_fin, Vector.getElem_set]
  by_cases h : j = i
  · simp [h]
  · simp [h, Fin.val_ne_of_ne (Ne.symm h)]

theorem writeK_readK (s : State) (i : StoreIndex) : writeK s i (readK s i) = s := by
  cases s
  simp [writeK, readK]

/-- Everything a reset step does (R220). -/
theorem resetStep_eq (s : State) :
    resetStep s = { s with sv := false, busy := false, dv := false, ph := .idle, rnd := 0 } := rfl

/-- When `cmd_ready` is 1 (R78). -/
theorem cmdReady_iff (op : OpCode) (s : State) :
    cmdReady op s = true ↔ s.busy = false ∧ (op.getLsbD 1 = false ∨ s.sv = true) := by
  simp [cmdReady]

/-- A command that is presented stays or is taken; no register changes (R77). -/
theorem takePresented_eq (op : OpCode) (s : State) :
    takePresented op s = { s with host := (takePresented op s).host } := by
  unfold takePresented
  split <;> rfl

theorem takePresented_host (op : OpCode) (s : State) :
    (takePresented op s).host = if cmdReady op s then s.host.tail else s.host := by
  unfold takePresented
  split <;> simp_all

end Sys2Proof.Machine
end

