-- ==== Sys2Proof/Laws/BlockTransform.lean ====
section
/-! SUPPORT. The laws of the block transform (spec/41_block_transform.md). -/

namespace Sys2Proof.Machine

theorem ip_length : ip.length = 64 := rfl
theorem fp_length : fp.length = 64 := rfl
theorem ip_range : ∀ p ∈ ip, 1 ≤ p ∧ p ≤ 64 := by decide
theorem fp_range : ∀ p ∈ fp, 1 ≤ p ∧ p ≤ 64 := by decide

@[simp] theorem subkeyIndex_encrypt (i : StoreIndex) : subkeyIndex .encrypt i = i := rfl
@[simp] theorem subkeyIndex_decrypt (i : StoreIndex) : subkeyIndex .decrypt i = i.rev := rfl

/-- The subkey of round n for Encrypt and for Decrypt (R142). -/
theorem roundKey_encrypt (k : Vector Subkey 16) {n : Nat} (h : n < 16) : roundKey k .encrypt n = k[n] := by
  simp [roundKey, Nat.mod_eq_of_lt h]

theorem roundKey_decrypt (k : Vector Subkey 16) {n : Nat} (h : n < 16) : roundKey k .decrypt n = k[15 - n] := by
  simp [roundKey, Fin.rev, Nat.mod_eq_of_lt h]

/-- One round (R143, R144). -/
theorem blockHalves_succ (k : Vector Subkey 16) (dir : Direction) (l r : Half) (n : Nat) :
    blockHalves k dir l r (n + 1) =
      roundHalves (roundKey k dir n) n (blockHalves k dir l r n).1 (blockHalves k dir l r n).2 := rfl

/-- A round that is not the last swaps the halves (R143). -/
theorem roundHalves_of_lt (subkey : Subkey) (l r : Half) {i : Nat} (h : i < 15) :
    roundHalves subkey i l r = (r, newLeft subkey l r) := by
  simp [roundHalves, h]

/-- The last round does not (R144). -/
theorem roundHalves_last (subkey : Subkey) (l r : Half) :
    roundHalves subkey 15 l r = (newLeft subkey l r, r) := rfl

/-- `Round(R, k) ^ (Round(R, k) ^ L) = L` (R148). -/
@[simp] theorem newLeft_newLeft (subkey : Subkey) (l r : Half) : newLeft subkey (newLeft subkey l r) r = l := by
  simp [newLeft]

theorem finalHalves_eq (k : Vector Subkey 16) (block : Block) (dir : Direction) :
    finalHalves k block dir = blockHalves k dir (hi32 (initialPerm block)) (lo32 (initialPerm block)) 16 := rfl

theorem transform_eq (k : Vector Subkey 16) (block : Block) (dir : Direction) :
    transform k block dir = finalPerm (finalHalves k block dir).1 (finalHalves k block dir).2 := rfl

/-- Micro-step BTL, field by field (R152). -/
theorem btl_eq (dir : Direction) (block : Block) (s : State) :
    btl dir block s = { s with
      l := hi32 (initialPerm block), r := lo32 (initialPerm block), dir := dir, dv := false, busy := true
      ph := .bt, rnd := 0 } := rfl

/-- Everything a whole block command does, but the latency (R150, R151). -/
theorem runBlock_eq (dir : Direction) (block : Block) (s : State) :
    runBlock dir block s = { s with
      dout := transform s.k block dir, dv := true, busy := false, dir := dir
      l := (finalHalves s.k block dir).1, r := (finalHalves s.k block dir).2, rnd := 0, ph := .idle } := rfl

/-- A round micro-step that is not the last (R153). -/
theorem btr_of_lt (s : State) (h : s.rnd.toNat < 15) :
    btr s = { s with
      l := s.r, r := newLeft (roundKey s.k s.dir s.rnd.toNat) s.l s.r
      ph := .bt, rnd := rndOf (s.rnd.toNat + 1) } := by
  simp [btr, h, setSequencer]

/-- The last round micro-step (R154). -/
theorem btr_last (s : State) (h : s.rnd.toNat = 15) :
    btr s = { s with
      l := newLeft (roundKey s.k s.dir 15) s.l s.r
      dout := finalPerm (newLeft (roundKey s.k s.dir 15) s.l s.r) s.r
      dv := true, busy := false, ph := .idle, rnd := 0 } := by
  simp [btr, h, setSequencer, flagsBlockDone]

end Sys2Proof.Machine
end

