-- ==== Sys2Proof/Laws/PerInstr.lean ====
section
/-! SUPPORT. Statements made for every command, one lemma per constructor of `Instr`. -/

namespace Sys2Proof.Laws.Fields

/-- The word of a command has its operation code at bits 65:64 and its operand at bits 63:0 (R70), and is well formed. -/
def Statement (i : Instr) : Prop :=
  opField (encode i) = i.op ∧ dataField (encode i) = i.data ∧ i.wellFormed = true

theorem word_bit (op : OpCode) (x : BitVec 64) (i : Nat) :
    (op ++ x : CommandWord).getLsbD i = if i < 64 then x.getLsbD i else op.getLsbD (i - 64) := by
  have h := BitVec.getLsbD_append (x := op) (y := x) (i := i)
  cases hi : decide (i < 64) <;> simp_all

theorem op_of_append (op : OpCode) (x : BitVec 64) : opField (op ++ x) = op := by
  refine BitVec.eq_of_getLsbD_eq fun i hi => ?_
  simp [opField, word_bit, hi]

theorem data_of_append (op : OpCode) (x : BitVec 64) : dataField (op ++ x) = x := by
  refine BitVec.eq_of_getLsbD_eq fun i hi => ?_
  simp [dataField, word_bit, hi]

theorem nop (data : BitVec 64) : Statement (.nop data) :=
  ⟨op_of_append _ _, data_of_append _ _, rfl⟩

theorem loadkey (key : KeyValue) : Statement (.loadkey key) :=
  ⟨op_of_append _ _, data_of_append _ _, rfl⟩

theorem encrypt (block : Block) : Statement (.encrypt block) :=
  ⟨op_of_append _ _, data_of_append _ _, rfl⟩

theorem decrypt (block : Block) : Statement (.decrypt block) :=
  ⟨op_of_append _ _, data_of_append _ _, rfl⟩

end Sys2Proof.Laws.Fields
end

