-- ==== Sys2Proof/Laws/KeyScheduler.lean ====
section
/-! SUPPORT. The laws of the key scheduler (spec/40_key_scheduler.md). -/

namespace Sys2Proof.Machine

theorem pc1Left_length : pc1Left.length = 28 := rfl
theorem pc1Right_length : pc1Right.length = 28 := rfl
theorem pc2_length : pc2.length = 48 := rfl
theorem pc1Left_range : ∀ p ∈ pc1Left, 1 ≤ p ∧ p ≤ 64 := by decide
theorem pc1Right_range : ∀ p ∈ pc1Right, 1 ≤ p ∧ p ≤ 64 := by decide
theorem pc2_range : ∀ p ∈ pc2, 1 ≤ p ∧ p ≤ 56 := by decide

theorem shiftAmount_one_or_two {r : Nat} (h1 : 1 ≤ r) (h2 : r ≤ 16) : shiftAmount r = 1 ∨ shiftAmount r = 2 := by
  interval_cases r <;> decide

/-- One schedule round (R105). -/
theorem keyHalves_succ (key : KeyValue) (r : Nat) :
    keyHalves key (r + 1) =
      (rotl28 (keyHalves key r).1 (shiftAmount (r + 1)), rotl28 (keyHalves key r).2 (shiftAmount (r + 1))) := rfl

/-- The subkey of a round, from the halves after its rotation (R108). -/
theorem roundSubkey_eq (key : KeyValue) (r : Nat) :
    roundSubkey key r = pc2Select (keyHalves key r).1 (keyHalves key r).2 := rfl

/-- Word i of a schedule (R110). -/
@[simp] theorem schedule_getElem (key : KeyValue) (i : Nat) (h : i < 16) :
    (schedule key)[i] = roundSubkey key (i + 1) := by
  simp [schedule]

@[simp] theorem c0_xor (a b : KeyValue) : c0 (a ^^^ b) = c0 a ^^^ c0 b := sel_xor _ _ pc1Left_length
@[simp] theorem d0_xor (a b : KeyValue) : d0 (a ^^^ b) = d0 a ^^^ d0 b := sel_xor _ _ pc1Right_length

theorem pc2Select_xor (c c' d d' : HalfKey) :
    pc2Select (c ^^^ c') (d ^^^ d') = pc2Select c d ^^^ pc2Select c' d' := by
  have : ((c ^^^ c') ++ (d ^^^ d') : KeyHalves) = (c ++ d : KeyHalves) ^^^ (c' ++ d' : KeyHalves) := by
    refine eq_of_pos fun p h1 h2 => ?_
    rw [pos_xor, pos_keyHalves _ _ h1 h2, pos_keyHalves _ _ h1 h2, pos_keyHalves _ _ h1 h2]
    split <;> simp
  simp only [pc2Select, this]
  exact sel_xor _ _ pc2_length

/-- Positions of a subkey, in the upper half from C and in the lower half from D (R107, R109). -/
theorem pos_pc2Select (c d : HalfKey) {q : Nat} (h1 : 1 ≤ q) (h2 : q ≤ 48) :
    pos (pc2Select c d) q =
      if pc2.getD (q - 1) 0 ≤ 28 then pos c (pc2.getD (q - 1) 0) else pos d (pc2.getD (q - 1) 0 - 28) := by
  obtain ⟨g1, g2⟩ := getD_in_range (i := q - 1) pc2_range (by rw [pc2_length]; omega)
  rw [pc2Select, pos_sel _ pc2_length h1 h2, pos_keyHalves _ _ g1 g2]

/-- Linearity of the halves (R112). -/
theorem keyHalves_xor (a b : KeyValue) {r : Nat} (hr : r ≤ 16) :
    keyHalves (a ^^^ b) r = ((keyHalves a r).1 ^^^ (keyHalves b r).1, (keyHalves a r).2 ^^^ (keyHalves b r).2) := by
  induction r with
  | zero => simp [keyHalves]
  | succ r ih =>
    have hs := shiftAmount_one_or_two (r := r + 1) (by omega) hr
    rw [keyHalves_succ, ih (by omega), keyHalves_succ, keyHalves_succ, rotl28_xor _ _ hs, rotl28_xor _ _ hs]

theorem roundSubkey_xor (a b : KeyValue) {r : Nat} (hr : r ≤ 16) :
    roundSubkey (a ^^^ b) r = roundSubkey a r ^^^ roundSubkey b r := by
  rw [roundSubkey_eq, keyHalves_xor a b hr, pc2Select_xor]
  rfl

/-- What a schedule micro-step writes to the store is the subkey of its round, when C and D are the halves before it. -/
theorem ksRotateAndStore_eq (r : Nat) (s : State) (key : KeyValue) (h : keyHalves key r = (s.c, s.d)) :
    ksRotateAndStore (r + 1) s =
      { s with
        c := (keyHalves key (r + 1)).1, d := (keyHalves key (r + 1)).2
        k := s.k.set (Fin.ofNat 16 r) (roundSubkey key (r + 1)) } := by
  simp [ksRotateAndStore, roundSubkey_eq, keyHalves_succ, h, writeK]

/-- Micro-step KS0, field by field (R121). -/
theorem ks0_eq (key : KeyValue) (s : State) :
    ks0 key s = { s with
      key := key, c := c0 key, d := d0 key, sv := false, busy := true, ph := .ks, rnd := 1 } := rfl

/-- A schedule micro-step that is not the last (R122). -/
theorem ksr_of_lt (s : State) (h : s.rnd.toNat < 16) :
    ksr s = { ksRotateAndStore s.rnd.toNat s with ph := .ks, rnd := rndOf (s.rnd.toNat + 1) } := by
  simp [ksr, h, setSequencer]

/-- The last schedule micro-step completes the command (R122, R123). -/
theorem ksr_last (s : State) (h : s.rnd.toNat = 16) :
    ksr s = { ksRotateAndStore 16 s with ph := .idle, rnd := 0, sv := true, busy := false } := by
  simp [ksr, h, setSequencer, flagsKeyDone]

/-- Everything a whole LOADKEY does, but the latency (R120). -/
theorem loadKey_eq (key : KeyValue) (s : State) :
    loadKey key s = { s with
      key := key, k := schedule key, sv := true, busy := false
      c := (keyHalves key 16).1, d := (keyHalves key 16).2, rnd := 0, ph := .idle } := rfl

end Sys2Proof.Machine
end

