-- ==== Sys2Proof/Laws/Timing.lean ====
section
/-! SUPPORT. The laws of paces (spec/70_reset_and_hazards.md R240 to R242). -/

namespace Sys2Proof.Machine

/-- From the last edge on, all rounds are done. -/
theorem roundsBy_of_le {p : Pace} {e : Nat} (h : p.last ≤ e) : roundsBy p e = 16 := by
  simp [roundsBy, h]

/-- Before the last edge, at most fifteen. -/
theorem roundsBy_of_lt {p : Pace} {e : Nat} (h : e < p.last) : roundsBy p e ≤ 15 := by
  simp [roundsBy, Nat.not_le.2 h]

theorem roundsBy_le (p : Pace) (e : Nat) : roundsBy p e ≤ 16 := by
  rcases Nat.lt_or_ge e p.last with h | h
  · exact Nat.le_succ_of_le (roundsBy_of_lt h)
  · exact (roundsBy_of_le h).le

/-- All rounds are done exactly from the last edge on. -/
theorem roundsBy_eq_sixteen {p : Pace} {e : Nat} : roundsBy p e = 16 ↔ p.last ≤ e := by
  refine ⟨fun h => ?_, roundsBy_of_le⟩
  by_contra hn
  have := roundsBy_of_lt (p := p) (e := e) (by omega)
  omega

/-- A round once done stays done. -/
theorem roundsBy_succ_ge (p : Pace) (e : Nat) : roundsBy p e ≤ roundsBy p (e + 1) := by
  rcases Nat.lt_or_ge (e + 1) p.last with h | h
  · have hs : (p.rounds.take (e + 1)).sum ≤ (p.rounds.take (e + 1 + 1)).sum := by
      rw [List.take_add (i := e + 1) (j := 1), List.sum_append]
      exact Nat.le_add_right _ _
    simp only [roundsBy, Nat.not_le.2 h, Nat.not_le.2 (Nat.lt_of_succ_lt h), if_false]
    omega
  · rw [roundsBy_of_le h]
    exact roundsBy_le p e

/-- The reference timing does round e at edge e (R242). -/
theorem roundsBy_reference {e : Nat} (h : e ≤ 16) : roundsBy referencePace e = e := by
  interval_cases e <;> rfl

end Sys2Proof.Machine
end

