-- ==== Sys2Proof/Laws/Sequencer.lean ====
section
/-! SUPPORT. What the micro-steps of a command, an edge without a command, an accepting edge and a clock edge can do, said
once (spec/10_state.md R35, spec/30_encoding.md R78, spec/70_reset_and_hazards.md R220, R241). -/

namespace Sys2Proof.Machine

@[simp] theorem rndOf_toNat {n : Nat} (h : n < 32) : (rndOf n).toNat = n := by
  simp [rndOf, Nat.mod_eq_of_lt h]

theorem rndOf_of_toNat (v : BitVec 5) : rndOf v.toNat = v := by
  simp [rndOf]

/-- The four codes of PH (R34). -/
theorem Phase.cases_on (p : Phase) : p = .idle ∨ p = .ks ∨ p = .bt ∨ p = .code3 := by
  cases p <;> simp

/-! ## One micro-step -/

theorem microStep_idle {s : State} (h : s.ph = .idle) : microStep s = s := by
  simp [microStep, h]

theorem microStep_ks {s : State} (h : s.ph = .ks) (h1 : 1 ≤ s.rnd.toNat) (h2 : s.rnd.toNat ≤ 16) :
    microStep s = ksr s := by
  simp [microStep, h, h1, h2]

theorem microStep_bt {s : State} (h : s.ph = .bt) (h2 : s.rnd.toNat ≤ 15) : microStep s = btr s := by
  simp [microStep, h, h2]

/-! ## A LOADKEY in progress -/

/-- The store `k` with its first `n` words those of the schedule of `key` (R122). -/
def storeWithFirst (key : KeyValue) (k : Vector Subkey 16) (n : Nat) : Vector Subkey 16 :=
  Vector.ofFn fun j => if j.val < n then roundSubkey key (j.val + 1) else k[j]

theorem storeWithFirst_getElem (key : KeyValue) (k : Vector Subkey 16) (n : Nat) (j : StoreIndex) :
    (storeWithFirst key k n)[j] = if j.val < n then (schedule key)[j] else k[j] := by
  simp [storeWithFirst]

theorem store_ext {a b : Vector Subkey 16} (h : ∀ j : StoreIndex, a[j] = b[j]) : a = b :=
  Vector.ext fun i hi => h ⟨i, hi⟩

theorem storeWithFirst_zero (key : KeyValue) (k : Vector Subkey 16) : storeWithFirst key k 0 = k :=
  store_ext fun j => by rw [storeWithFirst_getElem]; simp

theorem storeWithFirst_all (key : KeyValue) (k : Vector Subkey 16) : storeWithFirst key k 16 = schedule key :=
  store_ext fun j => by rw [storeWithFirst_getElem, if_pos j.isLt]

/-- The one store write of micro-step KS(n + 1). -/
theorem storeWithFirst_succ (key : KeyValue) (k : Vector Subkey 16) {n : Nat} (h : n < 16) :
    (storeWithFirst key k n).set (Fin.ofNat 16 n) (roundSubkey key (n + 1)) = storeWithFirst key k (n + 1) := by
  have hn : (Fin.ofNat 16 n).val = n := Nat.mod_eq_of_lt h
  refine Vector.ext fun i hi => ?_
  simp only [hn, Vector.getElem_set, storeWithFirst, Vector.getElem_ofFn]
  by_cases h1 : n = i
  · subst h1; simp
  · rw [if_neg h1]
    by_cases h2 : i < n
    · simp [h2, Nat.lt_succ_of_lt h2]
    · simp [h2, show ¬i < n + 1 by omega]

/-- State `s` with a LOADKEY of `key` in progress, of which `n` schedule rounds are done (R33, R121, R122). -/
def keyRun (key : KeyValue) (s : State) (n : Nat) : State :=
  { s with
    key := key, c := (keyHalves key n).1, d := (keyHalves key n).2, k := storeWithFirst key s.k n
    sv := false, busy := true, ph := .ks, rnd := rndOf (n + 1) }

theorem ks0_eq_keyRun (key : KeyValue) (s : State) : ks0 key s = keyRun key s 0 := by
  simp only [keyRun, storeWithFirst_zero]
  rfl

/-- A micro-step that is not the last (R122). -/
theorem microStep_keyRun (key : KeyValue) (s : State) {n : Nat} (h : n < 15) :
    microStep (keyRun key s n) = keyRun key s (n + 1) := by
  have hr : (keyRun key s n).rnd.toNat = n + 1 := rndOf_toNat (by omega)
  rw [microStep_ks rfl (by omega) (by omega), ksr_of_lt _ (by omega), hr, ksRotateAndStore_eq n _ key rfl]
  simp only [keyRun]
  rw [storeWithFirst_succ key s.k (by omega)]

/-- The last micro-step reaches what the whole LOADKEY reaches (R123). -/
theorem microStep_keyRun_last (key : KeyValue) (s : State) : microStep (keyRun key s 15) = loadKey key s := by
  have hr : (keyRun key s 15).rnd.toNat = 16 := rndOf_toNat (by omega)
  rw [microStep_ks rfl (by omega) (by omega), ksr_last _ hr, ksRotateAndStore_eq 15 _ key rfl, loadKey_eq]
  simp only [keyRun]
  rw [storeWithFirst_succ key s.k (by omega), storeWithFirst_all]

theorem iterate_keyRun (key : KeyValue) (s : State) {n m : Nat} (h : n + m ≤ 15) :
    microStep^[m] (keyRun key s n) = keyRun key s (n + m) := by
  induction m with
  | zero => rfl
  | succ m ih => rw [Function.iterate_succ_apply', ih (by omega), microStep_keyRun key s (by omega)]; rfl

/-- The sixteen schedule rounds, wherever they are cut into edges (R123, R241). -/
theorem iterate_keyRun_last (key : KeyValue) (s : State) {n : Nat} (h : n ≤ 15) :
    microStep^[16 - n] (keyRun key s n) = loadKey key s := by
  rw [show 16 - n = (15 - n) + 1 by omega, Function.iterate_succ_apply', iterate_keyRun key s (by omega),
    show n + (15 - n) = 15 by omega, microStep_keyRun_last]

/-- What is due of a LOADKEY in progress, when its pace has not overtaken it. -/
theorem advance_keyRun (key : KeyValue) (s : State) {n : Nat} (h : n ≤ 15) (hn : n ≤ roundsBy s.keyPace s.age) :
    advance (keyRun key s n) =
      if s.keyPace.last ≤ s.age then loadKey key s else keyRun key s (roundsBy s.keyPace s.age) := by
  have hr : (keyRun key s n).rnd.toNat = n + 1 := rndOf_toNat (by omega)
  have hd : microStepsDue (keyRun key s n) = roundsBy s.keyPace s.age - n := by
    simp only [microStepsDue, hr, show (keyRun key s n).ph = .ks from rfl]
    rw [if_pos (by omega)]
    rfl
  rw [advance, hd]
  split
  · next hl => rw [roundsBy_of_le hl, iterate_keyRun_last key s h]
  · next hl =>
    have := roundsBy_of_lt (Nat.lt_of_not_le hl)
    rw [iterate_keyRun key s (by omega), Nat.add_sub_cancel' hn]

/-! ## An ENCRYPT or DECRYPT in progress -/

/-- State `s` with a block command in progress, whose halves before the next round are `l` and `r`, of which `n` rounds
are done (R33, R152, R153). -/
def blockRun (dir : Direction) (l r : Half) (s : State) (n : Nat) : State :=
  { s with l := l, r := r, dir := dir, dv := false, busy := true, ph := .bt, rnd := rndOf n }

theorem btl_eq_blockRun (dir : Direction) (block : Block) (s : State) :
    btl dir block s = blockRun dir (hi32 (initialPerm block)) (lo32 (initialPerm block)) s 0 := rfl

/-- A micro-step that is not the last (R153). -/
theorem microStep_blockRun (dir : Direction) (l r : Half) (s : State) {n : Nat} (h : n < 15) :
    microStep (blockRun dir l r s n) = blockRun dir r (newLeft (roundKey s.k dir n) l r) s (n + 1) := by
  have hr : (blockRun dir l r s n).rnd.toNat = n := rndOf_toNat (by omega)
  rw [microStep_bt rfl (by omega), btr_of_lt _ (by omega), hr]
  rfl

/-- The last micro-step (R153, R154). -/
theorem microStep_blockRun_last (dir : Direction) (l r : Half) (s : State) :
    microStep (blockRun dir l r s 15) = { s with
      l := newLeft (roundKey s.k dir 15) l r, r := r, dir := dir
      dout := finalPerm (newLeft (roundKey s.k dir 15) l r) r, dv := true, busy := false, ph := .idle, rnd := 0 } := by
  have hr : (blockRun dir l r s 15).rnd.toNat = 15 := rndOf_toNat (by omega)
  rw [microStep_bt rfl (by omega), btr_last _ hr]
  rfl

/-- The halves go through the rounds of the transform, wherever they are cut into edges (R146, R153, R241). -/
theorem iterate_blockRun (dir : Direction) (l r : Half) (s : State) {n m : Nat} (h : n + m ≤ 15) :
    microStep^[m] (blockRun dir (blockHalves s.k dir l r n).1 (blockHalves s.k dir l r n).2 s n) =
      blockRun dir (blockHalves s.k dir l r (n + m)).1 (blockHalves s.k dir l r (n + m)).2 s (n + m) := by
  induction m with
  | zero => rfl
  | succ m ih =>
    rw [Function.iterate_succ_apply', ih (by omega), microStep_blockRun _ _ _ s (by omega), ← Nat.add_assoc,
      blockHalves_succ, roundHalves_of_lt _ _ _ (by omega)]

/-- The sixteen rounds of a block command reach what the whole command reaches (R154). -/
theorem iterate_blockRun_last (dir : Direction) (block : Block) (s : State) {n : Nat} (h : n ≤ 15) :
    microStep^[16 - n] (blockRun dir
        (blockHalves s.k dir (hi32 (initialPerm block)) (lo32 (initialPerm block)) n).1
        (blockHalves s.k dir (hi32 (initialPerm block)) (lo32 (initialPerm block)) n).2 s n) = runBlock dir block s := by
  rw [show 16 - n = (15 - n) + 1 by omega, Function.iterate_succ_apply', iterate_blockRun _ _ _ s (by omega),
    show n + (15 - n) = 15 by omega]
  have hh : blockHalves s.k dir (hi32 (initialPerm block)) (lo32 (initialPerm block)) 16 = _ :=
    blockHalves_succ s.k dir (hi32 (initialPerm block)) (lo32 (initialPerm block)) 15
  rw [microStep_blockRun_last, runBlock_eq, transform_eq, finalHalves_eq, hh, roundHalves_last]

theorem microStepsDue_blockRun (dir : Direction) (l r : Half) (s : State) {n : Nat} (h : n ≤ 15) :
    microStepsDue (blockRun dir l r s n) = roundsBy s.blockPace s.age - n := by
  have hr : (blockRun dir l r s n).rnd.toNat = n := rndOf_toNat (by omega)
  simp only [microStepsDue, hr, show (blockRun dir l r s n).ph = .bt from rfl]
  rw [if_pos h]
  rfl

/-- What is due of a block command in progress, when its pace has not overtaken it. -/
theorem advance_blockRun (dir : Direction) (block : Block) (s : State) {n : Nat} (h : n ≤ 15)
    (hn : n ≤ roundsBy s.blockPace s.age) :
    advance (blockRun dir
        (blockHalves s.k dir (hi32 (initialPerm block)) (lo32 (initialPerm block)) n).1
        (blockHalves s.k dir (hi32 (initialPerm block)) (lo32 (initialPerm block)) n).2 s n) =
      if s.blockPace.last ≤ s.age then runBlock dir block s
      else blockRun dir
        (blockHalves s.k dir (hi32 (initialPerm block)) (lo32 (initialPerm block)) (roundsBy s.blockPace s.age)).1
        (blockHalves s.k dir (hi32 (initialPerm block)) (lo32 (initialPerm block)) (roundsBy s.blockPace s.age)).2 s
        (roundsBy s.blockPace s.age) := by
  rw [advance, microStepsDue_blockRun _ _ _ _ h]
  split
  · next hl => rw [roundsBy_of_le hl, iterate_blockRun_last dir block s h]
  · next hl =>
    have := roundsBy_of_lt (Nat.lt_of_not_le hl)
    rw [iterate_blockRun _ _ _ s (by omega), Nat.add_sub_cancel' hn]

/-- The registers that the rounds of a block command write, whatever its halves are: still in progress. -/
theorem iterate_blockRun_frame (dir : Direction) (l r : Half) (s : State) {n m : Nat} (h : n + m ≤ 15) :
    ∃ l' r', microStep^[m] (blockRun dir l r s n) = blockRun dir l' r' s (n + m) := by
  induction m with
  | zero => exact ⟨l, r, rfl⟩
  | succ m ih =>
    obtain ⟨l', r', h'⟩ := ih (by omega)
    refine ⟨r', newLeft (roundKey s.k dir (n + m)) l' r', ?_⟩
    rw [Function.iterate_succ_apply', h', microStep_blockRun _ _ _ s (by omega)]
    rfl

/-- The registers that the rounds of a block command write, whatever its halves are: complete. -/
theorem iterate_blockRun_last_frame (dir : Direction) (l r : Half) (s : State) {n : Nat} (h : n ≤ 15) :
    ∃ l' r', microStep^[16 - n] (blockRun dir l r s n) =
      { s with l := l', r := r', dir := dir, dout := finalPerm l' r', dv := true, busy := false, ph := .idle, rnd := 0 } := by
  obtain ⟨l', r', h'⟩ := iterate_blockRun_frame dir l r s (n := n) (m := 15 - n) (by omega)
  refine ⟨newLeft (roundKey s.k dir 15) l' r', r', ?_⟩
  rw [show 16 - n = (15 - n) + 1 by omega, Function.iterate_succ_apply', h', show n + (15 - n) = 15 by omega,
    microStep_blockRun_last]

/-! ## Edges -/

theorem tick_of_idle {s : State} (h : s.ph = .idle) : tick s = s := by
  cases s
  simp_all [tick]

theorem tick_of_not_idle {s : State} (h : s.ph ≠ .idle) : tick s = { s with age := s.age + 1 } := by
  simp [tick, h]

/-- An edge of an idle block changes no register (R35). -/
theorem quietEdge_idle {s : State} (h : s.ph = .idle) : quietEdge s = passEdges 1 s := by
  simp [quietEdge, tick_of_idle (s := passEdges 1 s) h, advance, microStepsDue, h]

/-- The edge that accepts a NOP (R155). -/
@[simp] theorem acceptEdge_nop (data : BitVec 64) (s : State) : acceptEdge (.nop data) s = s := rfl

/-- The edge that accepts a LOADKEY (R121, R241). -/
theorem acceptEdge_loadkey (key : KeyValue) (s : State) :
    acceptEdge (.loadkey key) s =
      if s.keyPace.last = 0 then loadKey key (startPace s) else keyRun key (startPace s) (roundsBy s.keyPace 0) := by
  have h := advance_keyRun key (startPace s) (n := 0) (by omega) (by omega)
  simp only [startPace_keyPace, startPace_age, Nat.le_zero] at h
  rw [← ks0_eq_keyRun] at h
  exact h

/-- What an edge that accepts a block command leaves (R152, R241). -/
def acceptedBlock (dir : Direction) (block : Block) (s : State) : State :=
  if s.blockPace.last = 0 then runBlock dir block (startPace s)
  else blockRun dir
    (blockHalves s.k dir (hi32 (initialPerm block)) (lo32 (initialPerm block)) (roundsBy s.blockPace 0)).1
    (blockHalves s.k dir (hi32 (initialPerm block)) (lo32 (initialPerm block)) (roundsBy s.blockPace 0)).2 (startPace s)
    (roundsBy s.blockPace 0)

theorem advance_btl (dir : Direction) (block : Block) (s : State) :
    advance (startPace (btl dir block s)) = acceptedBlock dir block s := by
  have h := advance_blockRun dir block (startPace s) (n := 0) (by omega) (by omega)
  simp only [startPace_blockPace, startPace_age, startPace_k, Nat.le_zero] at h
  exact h

theorem acceptEdge_encrypt (block : Block) (s : State) : acceptEdge (.encrypt block) s = acceptedBlock .encrypt block s :=
  advance_btl _ _ _

theorem acceptEdge_decrypt (block : Block) (s : State) : acceptEdge (.decrypt block) s = acceptedBlock .decrypt block s :=
  advance_btl _ _ _

/-- Everything a clock edge can do (R78, R202, R220). -/
theorem clockEdge_cases (p : Pins) (s : State) :
    (p.rst = true ∧ clockEdge p s = resetStep (passEdges 1 s)) ∨
      (p.rst = false ∧ p.cmdValid = true ∧ cmdReady p.cmdOp s = true ∧
        clockEdge p s = acceptEdge (decode (p.cmdOp ++ p.cmdData)) (passEdges 1 s)) ∨
      (p.rst = false ∧ ¬(p.cmdValid = true ∧ cmdReady p.cmdOp s = true) ∧ clockEdge p s = quietEdge s) := by
  unfold clockEdge
  split
  · next hr => exact .inl ⟨hr, rfl⟩
  · next hr =>
    split
    · next hv =>
      simp only [Bool.and_eq_true] at hv
      exact .inr (.inl ⟨by simpa using hr, hv.1, hv.2, rfl⟩)
    · next hv => exact .inr (.inr ⟨by simpa using hr, by simpa using hv, rfl⟩)

/-- An edge at which reset is asserted (R220). -/
theorem clockEdge_reset {p : Pins} (s : State) (h : p.rst = true) : clockEdge p s = resetStep (passEdges 1 s) := by
  simp [clockEdge, h]

/-- An edge that accepts a command (R78). -/
theorem clockEdge_accept {p : Pins} {s : State} (hr : p.rst = false) (hv : p.cmdValid = true)
    (hc : cmdReady p.cmdOp s = true) :
    clockEdge p s = acceptEdge (decode (p.cmdOp ++ p.cmdData)) (passEdges 1 s) := by
  simp [clockEdge, hr, hv, hc]

/-- An edge that accepts none, with no reset (R78). -/
theorem clockEdge_quiet {p : Pins} {s : State} (hr : p.rst = false)
    (hn : ¬(p.cmdValid = true ∧ cmdReady p.cmdOp s = true)) : clockEdge p s = quietEdge s := by
  unfold clockEdge
  rw [if_neg (by simp [hr]), if_neg (by simpa using hn)]

/-- A busy block accepts nothing (R78, R202). -/
theorem cmdReady_busy {op : OpCode} {s : State} (h : s.busy = true) : cmdReady op s = false := by
  simp [cmdReady, h]

/-- A busy block at an edge with no reset goes on, whatever is presented (R202). -/
theorem clockEdge_busy {p : Pins} {s : State} (hr : p.rst = false) (hb : s.busy = true) :
    clockEdge p s = quietEdge s :=
  clockEdge_quiet hr (by simp [cmdReady_busy hb])

end Sys2Proof.Machine
end

