-- ==== Sys2Proof/Laws/Step.lean ====
section
/-! SUPPORT. What a command and a step can do, said once (spec/00_scope.md R14, spec/30_encoding.md R77, R78). -/

namespace Sys2Proof.Machine

/-- The word of a command decodes to the command's code and operand fields. -/
theorem decode_op (w : CommandWord) : (decode w).op = opField w := by
  unfold decode
  split <;> simp_all [Instr.op]

/-- The whole effect of an accepted command at the transaction level (R120, R150, R151, R155). -/
def transact (i : Instr) (s : State) : State :=
  match i with
  | .nop _ => s
  | .loadkey key => loadKey key s
  | .encrypt block => runBlock .encrypt block s
  | .decrypt block => runBlock .decrypt block s

/-- Every command is either accepted, and then does the whole of its effect, or passes an edge that accepts nothing. -/
theorem exec_eq (i : Instr) (s : State) :
    exec i s =
      if cmdReady i.op s then .next (passEdges (latency i s) (transact i s)) else .next (quietEdge s) := by
  cases i <;> rfl

theorem exec_accepted {i : Instr} {s : State} (h : cmdReady i.op s = true) :
    exec i s = .next (passEdges (latency i s) (transact i s)) := by
  rw [exec_eq, if_pos h]

theorem exec_waits {i : Instr} {s : State} (h : cmdReady i.op s = false) : exec i s = .next (quietEdge s) := by
  rw [exec_eq, if_neg (by simp [h])]

theorem step_nil {s : State} (h : s.host = []) : step s = .next (quietEdge s) := by
  unfold step
  rw [h]

theorem step_edge {s : State} {p : Pins} {rest : List HostEvent} (h : s.host = .edge p :: rest) :
    step s = .next (clockEdge p { s with host := rest }) := by
  unfold step
  rw [h]
  simp [popHost, h]

theorem step_command {s : State} {w : CommandWord} {rest : List HostEvent} (h : s.host = .command w :: rest) :
    step s = exec (decode w) (takePresented (decode w).op s) := by
  unfold step
  rw [h]

/-- A step never stops (R200, R205). -/
theorem step_next (s : State) : ∃ t, step s = .next t := by
  rcases hs : s.host with _ | ⟨e, rest⟩
  · exact ⟨_, step_nil hs⟩
  · cases e with
    | edge p => exact ⟨_, step_edge hs⟩
    | command w =>
      rw [step_command hs, exec_eq]
      split
      · exact ⟨_, rfl⟩
      · exact ⟨_, rfl⟩

/-- Everything a step can do. -/
theorem step_cases {s t : State} (h : step s = .next t) :
    (s.host = [] ∧ t = quietEdge s) ∨
      (∃ p rest, s.host = .edge p :: rest ∧ t = clockEdge p { s with host := rest }) ∨
      (∃ w rest, s.host = .command w :: rest ∧ cmdReady (decode w).op s = true ∧
        t = passEdges (latency (decode w) s) (transact (decode w) { s with host := rest })) ∨
      (∃ w rest, s.host = .command w :: rest ∧ cmdReady (decode w).op s = false ∧ t = quietEdge s) := by
  rcases hs : s.host with _ | ⟨e, rest⟩
  · rw [step_nil hs] at h
    exact .inl ⟨rfl, by simpa using h.symm⟩
  · cases e with
    | edge p =>
      rw [step_edge hs] at h
      exact .inr (.inl ⟨p, rest, rfl, by simpa using h.symm⟩)
    | command w =>
      rw [step_command hs] at h
      cases hc : cmdReady (decode w).op s with
      | true =>
        refine .inr (.inr (.inl ⟨w, rest, rfl, hc, ?_⟩))
        simp only [takePresented, hc, if_true, popHost, hs, List.tail_cons] at h
        rw [exec_accepted (by simpa [cmdReady] using hc)] at h
        have hl : latency (decode w) { s with host := rest } = latency (decode w) s := by cases decode w <;> rfl
        rw [hl] at h
        simpa using h.symm
      | false =>
        refine .inr (.inr (.inr ⟨w, rest, rfl, hc, ?_⟩))
        simp only [takePresented, hc] at h
        rw [exec_waits (by simpa using hc)] at h
        simpa using h.symm

end Sys2Proof.Machine
end

