-- ==== Sys2Proof/Laws/Run.lean ====
section
/-! SUPPORT. Runs of many steps, and everything one step can do to the registers. -/

namespace Sys2Proof.Machine

@[simp] theorem runSteps_zero (s : State) : runSteps 0 s = .next s := rfl

theorem runSteps_succ {n : Nat} {s t : State} (h : step s = .next t) : runSteps (n + 1) s = runSteps n t := by
  simp [runSteps, h]

/-- `runSteps` is the host's own run of this machine. -/
theorem runSteps_eq_core (n : Nat) (s : State) : runSteps n s = Host.Core.run Sys2Proof.core n s := by
  induction n generalizing s with
  | zero => rfl
  | succ n ih =>
    have hs : Sys2Proof.core.step s = step s := rfl
    cases h : step s <;> simp [runSteps, Host.Core.run, hs, h, ih] <;> rfl

/-- A run in two parts. -/
theorem runSteps_add {m n : Nat} {s t : State} (h : runSteps m s = .next t) :
    runSteps (m + n) s = runSteps n t := by
  induction m generalizing s with
  | zero => simp only [runSteps_zero, Host.Outcome.next.injEq] at h; simp [h]
  | succ m ih =>
    rw [Nat.add_right_comm]
    cases hs : step s with
    | next u => rw [runSteps_succ hs] at h ⊢; exact ih h
    | fault f => simp [runSteps, hs] at h
    | refused e => simp [runSteps, hs] at h

/-- A property that every step keeps holds at the end of every run. -/
theorem runSteps_keeps {P : State → Prop} (hstep : ∀ s t, P s → step s = .next t → P t) {n : Nat} {s t : State}
    (hs : P s) (h : runSteps n s = .next t) : P t := by
  induction n generalizing s with
  | zero => simp only [runSteps_zero, Host.Outcome.next.injEq] at h; exact h ▸ hs
  | succ n ih =>
    cases hu : step s with
    | next u => rw [runSteps_succ hu] at h; exact ih (hstep _ _ hs hu) h
    | fault f => simp [runSteps, hu] at h
    | refused e => simp [runSteps, hu] at h

/-- A relation that every step keeps between two machines holds at the end of all their runs. -/
theorem runSteps_related {R : State → State → Prop} (h : ∀ s t, R s t → OutcomesRelated R (step s) (step t)) (n : Nat)
    {s t : State} (hst : R s t) : OutcomesRelated R (runSteps n s) (runSteps n t) := by
  induction n generalizing s t with
  | zero => exact hst
  | succ n ih =>
    have := h s t hst
    cases hs : step s <;> cases ht : step t <;> simp only [hs, ht, OutcomesRelated] at this
    · rw [runSteps_succ hs, runSteps_succ ht]; exact ih this
    · simp [runSteps, hs, ht, OutcomesRelated, this]
    · simp [runSteps, hs, ht, OutcomesRelated, this]

/-- What a step may do to `s`. -/
inductive StepEffect (s : State) : State → Prop where
  /-- An edge with no reset that accepts nothing (R35, R78). -/
  | edge (hst : List HostEvent) (quiet : acceptedBy s = none) : StepEffect s (quietEdge { s with host := hst })
  /-- A reset step (R220). -/
  | reset (cl : Nat) (hst : List HostEvent) (asserted : resets s) (quiet : acceptedBy s = none) :
      StepEffect s { resetStep s with clock := cl, host := hst }
  /-- An edge that accepts a command (R78). -/
  | accept (hst : List HostEvent) (i : Instr) (accepted : acceptedBy s = some i) (ready : cmdReady i.op s = true) :
      StepEffect s (acceptEdge i { s with clock := s.clock + 1, host := hst })
  /-- A whole command at the transaction level (R77). -/
  | whole (cl : Nat) (hst : List HostEvent) (i : Instr) (accepted : acceptedBy s = some i)
      (ready : cmdReady i.op s = true) (level : wholeCommand s) :
      StepEffect s { transact i s with clock := cl, host := hst }

/-- Everything a step does. -/
theorem step_effect {s t : State} (h : step s = .next t) : StepEffect s t := by
  rcases step_cases h with ⟨hh, rfl⟩ | ⟨p, rest, hh, rfl⟩ | ⟨w, rest, hh, hc, rfl⟩ | ⟨w, rest, hh, hc, rfl⟩
  · exact .edge s.host (by simp [acceptedBy, nextEvent, hh])
  · rcases clockEdge_cases p { s with host := rest } with ⟨hr, hc⟩ | ⟨hr, hv, hrd, hc⟩ | ⟨hr, hn, hc⟩ <;> rw [hc]
    · exact .reset (s.clock + 1) rest ⟨p, by simp [nextEvent, hh], hr⟩ (by simp [acceptedBy, nextEvent, hh, hr])
    · have hrd' : cmdReady p.cmdOp s = true := by simpa [cmdReady] using hrd
      exact .accept rest (decode (p.cmdOp ++ p.cmdData)) (by simp [acceptedBy, nextEvent, hh, hr, hv, hrd'])
        (by rw [decode_op, Sys2Proof.Laws.Fields.op_of_append]; exact hrd')
    · have hn' : ¬(p.cmdValid = true ∧ cmdReady p.cmdOp s = true) := by simpa [cmdReady] using hn
      refine .edge rest ?_
      simp only [acceptedBy, nextEvent, hh, List.head?_cons]
      exact if_neg fun hy => hn' hy.2
  · have := StepEffect.whole (s := s) (s.clock + latency (decode w) s) rest (decode w)
      (by simp [acceptedBy, nextEvent, hh, hc]) hc ⟨w, by simp [nextEvent, hh]⟩
    revert this
    cases decode w <;> exact id
  · exact .edge s.host (by simp [acceptedBy, nextEvent, hh, hc])

end Sys2Proof.Machine
end

