-- ==== Sys2Proof/Laws/Invariant.lean ====
section
/-! SUPPORT. What the invariant says of a state in each phase, and what an edge then does (spec/10_state.md R33, R37). -/

namespace Sys2Proof.Machine

theorem inv_idle {s : State} (h : Inv s) (hp : s.ph = .idle) : s.busy = false ∧ s.rnd = 0 := by
  have := h.sequencer
  rwa [SequencerOk, hp] at this

theorem inv_ks {s : State} (h : Inv s) (hp : s.ph = .ks) :
    s.busy = true ∧ s.sv = false ∧ 1 ≤ s.rnd.toNat ∧ s.rnd.toNat ≤ 16 := by
  have := h.sequencer
  rwa [SequencerOk, hp] at this

theorem inv_bt {s : State} (h : Inv s) (hp : s.ph = .bt) :
    s.busy = true ∧ s.sv = true ∧ s.dv = false ∧ s.rnd.toNat ≤ 15 := by
  have := h.sequencer
  rwa [SequencerOk, hp] at this

/-- A block that has been reset is in one of the three phases (R34). -/
theorem inv_phase {s : State} (h : Inv s) : s.ph = .idle ∨ s.ph = .ks ∨ s.ph = .bt := by
  rcases Phase.cases_on s.ph with hp | hp | hp | hp
  · exact .inl hp
  · exact .inr (.inl hp)
  · exact .inr (.inr hp)
  · have := h.sequencer
    rw [SequencerOk, hp] at this
    exact this.elim

/-- The clock and the host are no part of the invariant. -/
theorem inv_outside {s : State} (h : Inv s) (cl : Nat) (hst : List HostEvent) :
    Inv { s with clock := cl, host := hst } :=
  ⟨h.sequencer, h.pace, h.schedule, h.keyRun⟩

/-- Every reset step makes the invariant true (R220). -/
theorem inv_of_idle {s : State} (hp : s.ph = .idle) (hb : s.busy = false) (hr : s.rnd = 0)
    (hk : s.sv = true → s.k = schedule s.key) : Inv s :=
  ⟨by rw [SequencerOk, hp]; exact ⟨hb, hr⟩, ⟨(fun h => by simp [hp] at h), (fun h => by simp [hp] at h)⟩, hk,
    fun h => by simp [hp] at h⟩

theorem inv_keyRun (key : KeyValue) (s : State) (h : s.age < s.keyPace.last) :
    Inv (keyRun key s (roundsBy s.keyPace s.age)) := by
  have hl := roundsBy_of_lt h
  have hr : (keyRun key s (roundsBy s.keyPace s.age)).rnd.toNat = roundsBy s.keyPace s.age + 1 := rndOf_toNat (by omega)
  refine ⟨⟨rfl, rfl, by omega, by omega⟩, ⟨fun _ => ⟨h, hr⟩, (fun hp => by cases hp)⟩, (fun hs => by cases hs), fun _ => ?_⟩
  rw [hr]
  refine ⟨rfl, fun i hi => ?_⟩
  exact (storeWithFirst_getElem key s.k _ i).trans (if_pos (by omega))

theorem inv_blockRun (dir : Direction) (l r : Half) {s : State} (hs : s.sv = true) (hk : s.k = schedule s.key)
    (h : s.age < s.blockPace.last) : Inv (blockRun dir l r s (roundsBy s.blockPace s.age)) := by
  have hl := roundsBy_of_lt h
  have hr : (blockRun dir l r s (roundsBy s.blockPace s.age)).rnd.toNat = roundsBy s.blockPace s.age :=
    rndOf_toNat (by omega)
  exact ⟨⟨rfl, hs, rfl, by omega⟩, ⟨(fun hp => by cases hp), fun _ => ⟨h, hr⟩⟩, fun _ => hk, (fun hp => by cases hp)⟩

/-- A LOADKEY in progress is determined by KEY, the store and how far its pace is (R33, R37). -/
theorem eq_keyRun {s : State} (h : Inv s) (hp : s.ph = .ks) : s = keyRun s.key s (roundsBy s.keyPace s.age) := by
  obtain ⟨hb, hs, h1, h2⟩ := inv_ks h hp
  obtain ⟨-, hr⟩ := h.pace.1 hp
  obtain ⟨hk, hw⟩ := h.keyRun hp
  rw [hr, Nat.add_sub_cancel] at hk
  have hst : storeWithFirst s.key s.k (roundsBy s.keyPace s.age) = s.k := store_ext fun j => by
    rw [storeWithFirst_getElem]
    split
    · exact (hw j (by omega)).symm
    · rfl
  have hn : rndOf (roundsBy s.keyPace s.age + 1) = s.rnd := by rw [← hr, rndOf_of_toNat]
  simp only [keyRun, hk, hst, hn, ← hb, ← hs, ← hp]

/-- A block command in progress has the flags that its acceptance left and a round count that its pace gives. -/
theorem eq_blockRun {s : State} (h : Inv s) (hp : s.ph = .bt) :
    s = blockRun s.dir s.l s.r s (roundsBy s.blockPace s.age) := by
  obtain ⟨hb, -, hd, -⟩ := inv_bt h hp
  obtain ⟨-, hr⟩ := h.pace.2 hp
  have hn : rndOf (roundsBy s.blockPace s.age) = s.rnd := by rw [← hr, rndOf_of_toNat]
  simp only [blockRun, hn, ← hb, ← hd, ← hp]

/-- `s` after one more edge of its command's pace. -/
def nextEdge (s : State) : State := { s with age := s.age + 1, clock := s.clock + 1 }

/-- An edge of a LOADKEY in progress (R122, R123, R241). -/
theorem quietEdge_key {s : State} (h : Inv s) (hp : s.ph = .ks) :
    quietEdge s =
      if s.age + 1 = s.keyPace.last then loadKey s.key (nextEdge s)
      else keyRun s.key (nextEdge s) (roundsBy s.keyPace (s.age + 1)) := by
  have hl := (h.pace.1 hp).1
  have ht : tick (passEdges 1 s) = keyRun s.key (nextEdge s) (roundsBy s.keyPace s.age) := by
    rw [tick_of_not_idle (by simp [hp])]
    exact congrArg nextEdge (eq_keyRun h hp)
  have hc : s.keyPace.last ≤ s.age + 1 ↔ s.age + 1 = s.keyPace.last := by omega
  rw [quietEdge, ht, advance_keyRun s.key (nextEdge s) (roundsBy_of_lt hl) (roundsBy_succ_ge _ _)]
  simp only [nextEdge, hc]

/-- An edge of a block command in progress (R153, R154, R241). -/
theorem quietEdge_block {s : State} (h : Inv s) (hp : s.ph = .bt) :
    ∃ l r, quietEdge s =
      if s.age + 1 = s.blockPace.last then
        { nextEdge s with l := l, r := r, dout := finalPerm l r, dv := true, busy := false, ph := .idle, rnd := 0 }
      else blockRun s.dir l r (nextEdge s) (roundsBy s.blockPace (s.age + 1)) := by
  have hl := (h.pace.2 hp).1
  have hn := roundsBy_of_lt hl
  have hs := roundsBy_succ_ge s.blockPace s.age
  have ht : tick (passEdges 1 s) = blockRun s.dir s.l s.r (nextEdge s) (roundsBy s.blockPace s.age) := by
    rw [tick_of_not_idle (by simp [hp])]
    exact congrArg nextEdge (eq_blockRun h hp)
  rw [quietEdge, ht, advance, microStepsDue_blockRun _ _ _ _ hn]
  simp only [nextEdge]
  split
  · next he =>
    rw [roundsBy_of_le (by omega)]
    exact iterate_blockRun_last_frame _ _ _ _ hn
  · next he =>
    have := roundsBy_of_lt (p := s.blockPace) (e := s.age + 1) (by omega)
    obtain ⟨l, r, hi⟩ := iterate_blockRun_frame s.dir s.l s.r (nextEdge s) (n := roundsBy s.blockPace s.age)
      (m := roundsBy s.blockPace (s.age + 1) - roundsBy s.blockPace s.age) (by omega)
    refine ⟨l, r, ?_⟩
    rw [Nat.add_sub_cancel' hs] at hi
    exact hi

end Sys2Proof.Machine
end

