-- ==== Sys2Proof/Tests/Slice0.lean ====
section
/-! SUPPORT. Tests of the model on values from the spec, and a witness for the hypotheses of every statement that has some.
Every expected value is copied from spec/ (mostly spec/95_test_vectors.md), none is the model's own answer. -/

namespace Sys2Proof.Tests

open Sys2Proof Sys2Proof.Machine

/-! ## Well-formedness (spec/30_encoding.md R75, R76, R77) -/

theorem test_illFormed_word :
    isCommandWord (2 ^ 66) = false ∧ decodeRaw (2 ^ 66) = .error .widerThanCommandPort := ⟨by decide, rfl⟩
theorem test_wellFormed_word : isCommandWord (2 ^ 66 - 1) = true := by decide
theorem test_illFormed_readSk : (Line.readSk 16).wellFormed = false ∧ (Line.readSk 15).wellFormed = true := by decide

/-! ## Decoding: each word written out bit by bit from R70 and R72, `cmd_op` first -/

/-- NOP with an operand field of all ones, ignored but kept. -/
theorem test_decode_nop :
    decode 0b001111111111111111111111111111111111111111111111111111111111111111 = .nop 0xFFFFFFFFFFFFFFFF := by decide

/-- LOADKEY 0x133457799BBCDFF1. -/
theorem test_decode_loadkey :
    decode 0b010001001100110100010101110111100110011011101111001101111111110001 = .loadkey 0x133457799BBCDFF1 := by decide

/-- ENCRYPT 0x0123456789ABCDEF. -/
theorem test_decode_encrypt :
    decode 0b100000000100100011010001010110011110001001101010111100110111101111 = .encrypt 0x0123456789ABCDEF := by decide

/-- DECRYPT 0x85E813540F0AB405. -/
theorem test_decode_decrypt :
    decode 0b111000010111101000000100110101010000001111000010101011010000000101 = .decrypt 0x85E813540F0AB405 := by decide

/-- The match values of spec/opcode_table.json, numbered as the table numbers them. -/
theorem test_tableWords :
    decodeTableWord 72 0x00000000000000000 = some (.nop 0) ∧ decodeTableWord 72 0x10000000000000000 = some (.loadkey 0) ∧
      decodeTableWord 72 0x20000000000000000 = some (.encrypt 0) ∧
      decodeTableWord 72 0x30000000000000000 = some (.decrypt 0) := by decide

/-! ## The tables against the spec's second form of them, which counts from bit 0 -/

/-- R101. -/
theorem test_table_pc1Left : pc1Left.map (64 - ·) =
      [7, 15, 23, 31, 39, 47, 55] ++
      [63, 6, 14, 22, 30, 38, 46] ++
      [54, 62, 5, 13, 21, 29, 37] ++
      [45, 53, 61, 4, 12, 20, 28] := by decide

/-- R102. -/
theorem test_table_pc1Right : pc1Right.map (64 - ·) =
      [1, 9, 17, 25, 33, 41, 49] ++
      [57, 2, 10, 18, 26, 34, 42] ++
      [50, 58, 3, 11, 19, 27, 35] ++
      [43, 51, 59, 36, 44, 52, 60] := by decide

/-- R107. -/
theorem test_table_pc2 : pc2.map (56 - ·) =
      [42, 39, 45, 32, 55, 51] ++
      [53, 28, 41, 50, 35, 46] ++
      [33, 37, 44, 52, 30, 48] ++
      [40, 49, 29, 36, 43, 54] ++
      [15, 4, 25, 19, 9, 1] ++
      [26, 16, 5, 11, 23, 8] ++
      [12, 7, 17, 0, 22, 3] ++
      [10, 14, 6, 20, 27, 24] := by decide

/-- R141. -/
theorem test_table_ip : ip.map (64 - ·) =
      [6, 14, 22, 30, 38, 46, 54, 62] ++
      [4, 12, 20, 28, 36, 44, 52, 60] ++
      [2, 10, 18, 26, 34, 42, 50, 58] ++
      [0, 8, 16, 24, 32, 40, 48, 56] ++
      [7, 15, 23, 31, 39, 47, 55, 63] ++
      [5, 13, 21, 29, 37, 45, 53, 61] ++
      [3, 11, 19, 27, 35, 43, 51, 59] ++
      [1, 9, 17, 25, 33, 41, 49, 57] := by decide

/-- R145. -/
theorem test_table_fp : fp.map (64 - ·) =
      [24, 56, 16, 48, 8, 40, 0, 32] ++
      [25, 57, 17, 49, 9, 41, 1, 33] ++
      [26, 58, 18, 50, 10, 42, 2, 34] ++
      [27, 59, 19, 51, 11, 43, 3, 35] ++
      [28, 60, 20, 52, 12, 44, 4, 36] ++
      [29, 61, 21, 53, 13, 45, 5, 37] ++
      [30, 62, 22, 54, 14, 46, 6, 38] ++
      [31, 63, 23, 55, 15, 47, 7, 39] := by decide

/-- R171. -/
theorem test_table_expansion : expansion.map (32 - ·) =
      [0, 31, 30, 29, 28, 27] ++
      [28, 27, 26, 25, 24, 23] ++
      [24, 23, 22, 21, 20, 19] ++
      [20, 19, 18, 17, 16, 15] ++
      [16, 15, 14, 13, 12, 11] ++
      [12, 11, 10, 9, 8, 7] ++
      [8, 7, 6, 5, 4, 3] ++
      [4, 3, 2, 1, 0, 31] := by decide

/-- R185. -/
theorem test_table_permP : permP.map (32 - ·) =
      [16, 25, 12, 11] ++
      [3, 20, 4, 15] ++
      [31, 17, 9, 6] ++
      [27, 14, 1, 22] ++
      [30, 24, 8, 18] ++
      [0, 5, 29, 23] ++
      [13, 19, 2, 26] ++
      [10, 21, 28, 7] := by decide

/-- R104. -/
theorem test_shifts : shifts = [1, 1, 2, 2, 2, 2, 2, 2, 1, 2, 2, 2, 2, 2, 2, 1] := by decide

/-! ## Notation (spec/95_test_vectors.md 5.1) -/

theorem test_sel : sel 3 [2, 3, 1] (0b100 : BitVec 3) = 0b001 ∧ sel 3 [1, 1, 2] (0b10 : BitVec 2) = 0b110 := by decide
theorem test_pos :
    pos (0x8000000000000000 : Block) 1 = true ∧ pos (0x0000000000000001 : Block) 64 = true ∧
      pos (0x0100000000000000 : Block) 8 = true := by decide
theorem test_halves :
    hi32 0x0123456789ABCDEF = 0x01234567 ∧ lo32 0x0123456789ABCDEF = 0x89ABCDEF ∧
      (0xABC : BitVec 12) ++ (0xDE : BitVec 8) = (0xABCDE : BitVec 20) := by decide
theorem test_rotl28 :
    rotl28 0x8000000 1 = 0x0000001 ∧ rotl28 0x8000000 2 = 0x0000002 ∧ rotl28 0x4000000 2 = 0x0000001 ∧
      rotl28 0xC000000 2 = 0x0000003 ∧ rotl28 0xF0CCAAF 1 = 0xE19955F ∧ rotl28 0x556678F 1 = 0xAACCF1E := by decide

/-- R54. -/
theorem test_ofBytes : ofBytes 0x01 0x23 0x45 0x67 0x89 0xAB 0xCD 0xEF = 0x0123456789ABCDEF := by decide

/-! ## Stages of the key scheduler and of the round function (spec/95_test_vectors.md 2, 4, 5) -/

theorem test_pc1 : c0 0x133457799BBCDFF1 = 0xF0CCAAF ∧ d0 0x133457799BBCDFF1 = 0x556678F := by decide
theorem test_pc1_single_bits :
    c0 0x8000000000000000 = 0x0100000 ∧ d0 0x0000001000000000 = 0x0000008 ∧ c0 0x0000000000000080 = 0x8000000 ∧
      d0 0x0000000000000002 = 0x8000000 := by decide
theorem test_pc2_single_bits :
    pc2Select 0x8000000 0 = 0x080000000000 ∧ pc2Select 0x0004000 0 = 0x800000000000 ∧
      pc2Select 0 0x8000000 = 0x000000000002 ∧ pc2Select 0 0x0000001 = 0x000000000100 := by decide
theorem test_subkeys :
    roundSubkey 0x133457799BBCDFF1 1 = 0x1B02EFFC7072 ∧ roundSubkey 0x133457799BBCDFF1 9 = 0xE0DBEBEDE781 ∧
      roundSubkey 0x133457799BBCDFF1 16 = 0xCB3D8B0E17F5 := by decide +kernel
theorem test_permutations :
    initialPerm 0x0123456789ABCDEF = 0xCC00CCFFF0AAF0AA ∧ sel 64 fp (0x0123456789ABCDEF : Block) = 0xFF330FAA00330FAA := by
  decide +kernel
theorem test_expand : expand 0x12345678 = 0x0A41A82AC3F0 ∧ expand 0x80000000 = 0x400000000001 := by decide
theorem test_sbox :
    sbox 0 1 = 0 ∧ sbox 0 32 = 4 ∧ sbox 0 63 = 13 ∧ sbox 1 33 = 13 ∧ sbox 3 42 = 11 ∧ sbox 4 63 = 3 ∧ sbox 7 27 = 14 := by
  decide
theorem test_permute : permute 0x5C82B597 = 0x234AA9BB ∧ permute 0xEFA72C4D = 0xD8D8DBBC := by decide
theorem test_round :
    substitute 0x6117BA866527 = 0x5C82B597 ∧ roundFunction 0xF0AAF0AA 0x1B02EFFC7072 = 0x234AA9BB ∧
      roundFunction 0x12345678 0x123456789ABC = 0x6A335997 := by decide +kernel
theorem test_transform_zero_key : transform (schedule 0) 0x0000000000000000 .encrypt = 0x8CA64DE9C1B123A7 := by decide +kernel
theorem test_transform_decrypt :
    transform (schedule 0x133457799BBCDFF1) 0x0123456789ABCDEF .decrypt = 0xEE0F7C12E0B09338 := by decide +kernel

/-! ## Small states -/

/-- The key of the source's vector. -/
def keyA : KeyValue := 0x133457799BBCDFF1

/-- The block of the source's vector. -/
def blockA : Block := 0x0123456789ABCDEF

/-- The result of the source's vector. -/
def resultA : Block := 0x85E813540F0AB405

/-- The machine after reset, in an implementation with the reference timing (R242). -/
def atReset : State := { State.reset with keyPace := referencePace, blockPace := referencePace }

/-- An idle machine under the vector's key, with the reference timing. -/
def keyed : State := { atReset with key := keyA, k := schedule keyA, sv := true }

/-- All rounds at the accepting edge: a latency of 1 (R241). -/
def unrolled : Pace := ⟨0, []⟩

/-- Nothing at the accepting edge, two rounds at edge 1, none at edge 2, one at edge 3, the rest at edge 4 (R241). -/
def uneven : Pace := ⟨4, [0, 2, 0, 1]⟩

/-- The same with a result in DOUT. -/
def answered : State := { keyed with dout := resultA, dv := true }

/-- Input ports that present command `i`. -/
def present (i : Instr) : Pins where
  rst := false
  cmdValid := true
  cmdOp := i.op
  cmdData := i.data
  skAddr := 0

/-- Input ports that present nothing. -/
def quiet : Pins := { present (.nop 0) with cmdValid := false }

/-- A state with one clock edge to come. -/
def atEdge (p : Pins) (s : State) : State := { s with host := [.edge p] }

/-- A state with one whole command to come. -/
def atCommand (i : Instr) (s : State) : State := { s with host := [.command (encode i)] }

/-- A LOADKEY in progress before micro-step KSr, with the reference timing. -/
def inKey (r : Nat) : State :=
  { ks0 keyA atReset with
    c := (keyHalves keyA (r - 1)).1, d := (keyHalves keyA (r - 1)).2, k := schedule keyA, rnd := rndOf r, age := r - 1 }

/-- An ENCRYPT in progress before micro-step BTR(i), with the halves that the key schedule and block give and the reference
timing. -/
def inBlock (i : Nat) : State :=
  { btl .encrypt blockA keyed with
    l := (blockHalves (schedule keyA) .encrypt 0xCC00CCFF 0xF0AAF0AA i).1
    r := (blockHalves (schedule keyA) .encrypt 0xCC00CCFF 0xF0AAF0AA i).2
    rnd := rndOf i
    age := i }

/-- The state after a step that does not stop. -/
def after (s : State) : State :=
  match step s with
  | .next t => t
  | .fault _ => s
  | .refused _ => s

/-! ## One step (spec/95_test_vectors.md 5.6 and 8) -/

/-- NOP changes no register (R155). -/
theorem test_nop : step (atCommand (.nop 7) answered) = .next { answered with clock := 1 } := rfl

/-- LOADKEY leaves DOUT and DV alone (R120). -/
theorem test_loadkey :
    (after (atCommand (.loadkey 0x0123456789ABCDEF) answered)).k[0] = 0x0B02679B49A5 ∧
      (after (atCommand (.loadkey 0x0123456789ABCDEF) answered)).k[15] = 0xCA3D03B87032 ∧
      (after (atCommand (.loadkey 0x0123456789ABCDEF) answered)).dout = resultA ∧
      (after (atCommand (.loadkey 0x0123456789ABCDEF) answered)).dv = true := by decide +kernel

/-- ENCRYPT (R150). -/
theorem test_encrypt :
    (after (atCommand (.encrypt blockA) keyed)).dout = resultA ∧ (after (atCommand (.encrypt blockA) keyed)).dv = true := by
  decide +kernel

/-- DECRYPT (R151). -/
theorem test_decrypt : (after (atCommand (.decrypt resultA) keyed)).dout = blockA := by decide +kernel

/-- A block command before a key waits (R203). -/
theorem test_decrypt_waits :
    step (atCommand (.decrypt resultA) State.reset) =
      .next { State.reset with clock := 1, host := [.command (encode (.decrypt resultA))] } := rfl

/-- Edge 2 of the trace: KS1 (R122). An edge of another pace performs KS1 and KS2 (R241). -/
theorem test_ks1 :
    (after (inKey 1)).c = 0xE19955F ∧ (after (inKey 1)).d = 0xAACCF1E ∧
      (after (keyRun keyA atReset 0)).k[0] = 0x1B02EFFC7072 ∧
      (after (keyRun keyA { atReset with keyPace := uneven } 0)).k[0] = 0x1B02EFFC7072 ∧
      (after (keyRun keyA { atReset with keyPace := uneven } 0)).k[1] = 0x79AED9DBC9E5 ∧
      (after (keyRun keyA { atReset with keyPace := uneven } 0)).rnd = 3 := by decide +kernel

/-- Edge 34 of the trace: BTR(15) does not swap (R153). An implementation that unrolls all rounds completes at the
accepting edge with the same result (R241). -/
theorem test_btr15 :
    (after (inBlock 15)).l = 0x0A4CD995 ∧ (after (inBlock 15)).r = 0x43423234 ∧ (after (inBlock 15)).dout = resultA ∧
      (after (atEdge (present (.encrypt blockA)) { keyed with blockPace := unrolled })).dout = resultA ∧
      (after (atEdge (present (.encrypt blockA)) { keyed with blockPace := unrolled })).busy = false := by decide +kernel

/-- LAT_KEY and LAT_BLK are those of the implementation (R6), and 17 in the reference timing (R242). -/
theorem test_latency :
    latency (.loadkey 0) State.reset = Config.latKey ∧ latency (.decrypt 0) State.reset = Config.latBlk ∧
      latency (.loadkey 0) atReset = 17 ∧ latency (.encrypt 0) atReset = 17 ∧ latency (.nop 0) atReset = 1 :=
  ⟨rfl, rfl, rfl, rfl, rfl⟩

/-- The first reset after power-up, whatever the registers hold (R220, R223). -/
theorem test_first_reset :
    (after (atEdge { quiet with rst := true } State.powerUp)).sv = false ∧
      (after (atEdge { quiet with rst := true } State.powerUp)).busy = false ∧
      (after (atEdge { quiet with rst := true } State.powerUp)).dv = false ∧
      (after (atEdge { quiet with rst := true } State.powerUp)).ph = .idle ∧
      (after (atEdge { quiet with rst := true } State.powerUp)).rnd = 0 := ⟨rfl, rfl, rfl, rfl, rfl⟩

/-- Reset in mid-command wins over the micro-step (R202, R220). -/
theorem test_reset :
    step (atEdge { quiet with rst := true } (inKey 5)) =
      .next { inKey 5 with busy := false, ph := .idle, rnd := 0, clock := 1 } := rfl

/-! ## Ports and program lines (R71, R77) -/

theorem test_ports :
    (outputs { quiet with skAddr := 15 } keyed).skData = 0xCB3D8B0E17F5 ∧ (outputs quiet answered).rspData = resultA ∧
      (outputs (present (.encrypt blockA)) State.reset).cmdReady = false ∧ statusWord answered = 0b011 := by decide +kernel

theorem test_parse_encrypt :
    parseLine ['E', 'N', 'C', 'R', 'Y', 'P', 'T', ' ', '0', 'x', '0', '1', '2', '3', '4', '5', '6', '7', '8', '9', 'A', 'B',
      'C', 'D', 'E', 'F', ' ', '#', ' ', '2'] = .ok (some (.command (.encrypt 0x0123456789ABCDEF))) := rfl

/-- An operand has exactly 16 digits. -/
theorem test_parse_short_operand :
    parseLine ['L', 'O', 'A', 'D', 'K', 'E', 'Y', ' ', '0', 'x', '1', '2'] = .error .badOperand := rfl

theorem test_parse_readSk :
    parseLine ['R', 'E', 'A', 'D', 'S', 'K', ' ', '1', '5'] = .ok (some (.readSk 15)) ∧
      parseLine ['R', 'E', 'A', 'D', 'S', 'K', ' ', '1', '6'] = .error .badIndex := ⟨rfl, rfl⟩

/-- P7: the ENCRYPT is never accepted, so the program does not end. -/
theorem test_program_waits :
    runProgram [.reset, .command (.nop 0), .command (.encrypt blockA), .command (.nop 0)] [] State.reset =
      .waiting { State.reset with clock := 2 } [] (.encrypt blockA) := rfl

/-! ## Witnesses: for every statement with hypotheses, values that meet all of them together, at the ends of their ranges -/

/-- The hypothesis `s.host = .edge p :: rest` of the statements about one edge: every state below made by `atEdge` meets it. -/
theorem witness_host_of_atEdge (p : Pins) (s : State) : (atEdge p s).host = .edge p :: [] := rfl

theorem witness_EncodeAfterDecode : encode (.loadkey keyA) = 0x1133457799BBCDFF1 := by decide

theorem witness_DecodeReadsOpFieldOnly :
    opField 0x20000000000000000 = opField 0x2FFFFFFFFFFFFFFFF ∧ (2 ^ 66 - 1 < 2 ^ 66 ∧ 2 ^ 66 ≤ 2 ^ 66) := by decide

theorem witness_SelectionCopiesPositions :
    [2, 3, 1].length = 3 ∧ (∀ p ∈ [2, 3, 1], 1 ≤ p ∧ p ≤ 3) ∧ (1 ≤ 1 ∧ 1 ≤ 3) ∧ (1 ≤ 3 ∧ 3 ≤ 3) := by decide

theorem witness_RotationIsCircular : (1 = 1 ∨ 1 = 2) ∧ (2 = 1 ∨ 2 = 2) ∧ (1 ≤ 1 ∧ 1 ≤ 28) ∧ (1 ≤ 28 ∧ 28 ≤ 28) := by decide

theorem witness_ScheduleRoundRotatesEachHalf :
    (1 ≤ 1 ∧ 1 ≤ 16 ∧ 1 ≤ 28 ∧ 28 ≤ 28) ∧ (1 ≤ 16 ∧ 16 ≤ 16 ∧ 1 ≤ 1 ∧ 1 ≤ 28) := by decide

theorem witness_SubkeyStandsAtRoundLessOne :
    (1 ≤ 1 ∧ 1 ≤ 16 ∧ (0 : StoreIndex).val = 1 - 1) ∧ (1 ≤ 16 ∧ 16 ≤ 16 ∧ (15 : StoreIndex).val = 16 - 1) := by decide

theorem witness_HalvesAreCumulativeRotations : 0 ≤ 16 ∧ 16 ≤ 16 ∧ (1 = 1 ∨ 1 = 2) ∧ (2 = 1 ∨ 2 = 2) := by decide

theorem witness_IgnoredKeyBitsChangeNothing :
    (1 ≤ 1 ∧ 1 ≤ 64) ∧ (1 ≤ 64 ∧ 64 ≤ 64) ∧ (0x0101010101010101 : KeyValue) &&& usedKeyBits = 0 := by decide

theorem witness_SubkeyHalvesComeFromCAndD :
    (1 ≤ 1 ∧ 24 ≤ 24) ∧ (25 ≤ 25 ∧ 48 ≤ 48) ∧ 14 ∈ pc2.take 24 ∧ 32 ∈ pc2.drop 24 ∧ (1 ≤ 56 ∧ 56 ≤ 56) := by decide

theorem witness_SubkeyBitsAreKeyBits : (1 ≤ 1 ∧ 1 ≤ 48) ∧ (1 ≤ 48 ∧ 48 ≤ 48) := by decide

theorem witness_ExpansionTakesNeighbours : (0 ≤ 7 ∧ 1 ≤ 1 ∧ 1 ≤ 6) ∧ (7 ≤ 7 ∧ 1 ≤ 6 ∧ 6 ≤ 6) := by decide

theorem witness_KeyMixingByPosition : (1 ≤ 1 ∧ 1 ≤ 48) ∧ (1 ≤ 48 ∧ 48 ≤ 48) := by decide

theorem witness_GroupFeedsItsOwnTable : 0 ≤ 7 ∧ 7 ≤ 7 := by decide

theorem witness_SubstitutionLayoutsAgree : 0 ≤ 7 ∧ 7 ≤ 7 := by decide

theorem witness_SubstitutionTablesAreBalanced : sStd ≠ [] ∧ sFlat ≠ [] ∧ 0 < 16 ∧ 15 < 16 := by decide

theorem witness_RoundResultIsPermutedSubstitution : (1 ≤ 1 ∧ 1 ≤ 32) ∧ (1 ≤ 32 ∧ 32 ≤ 32) := by decide

theorem witness_PermutationsAreMutualInverses : (1 ≤ 1 ∧ 1 ≤ 64) ∧ (1 ≤ 64 ∧ 64 ≤ 64) := by decide

theorem witness_PalindromicScheduleIsSelfInverse :
    ∀ i : StoreIndex, (Vector.replicate 16 (5 : Subkey))[i] = (Vector.replicate 16 (5 : Subkey))[i.rev] := by decide

theorem witness_TransformIsFipsRecurrence : 0 ≤ 15 ∧ 15 ≤ 15 := by decide

theorem witness_NopCompletes : State.reset.busy = false ∧ answered.busy = false := by decide

theorem witness_LoadkeyCompletes : State.reset.busy = false ∧ answered.busy = false := by decide

theorem witness_EncryptCompletes : keyed.busy = false ∧ keyed.sv = true := by decide

theorem witness_DecryptCompletes : answered.busy = false ∧ answered.sv = true := by decide

theorem witness_CommandsWriteOnlyTheirRegisters :
    (cmdReady (Instr.nop 7).op keyed = true ∧ ∃ t, exec (.nop 7) keyed = .next t) ∧
      (cmdReady (Instr.loadkey keyA).op keyed = true ∧ ∃ t, exec (.loadkey keyA) keyed = .next t) ∧
      (cmdReady (Instr.encrypt blockA).op keyed = true ∧ ∃ t, exec (.encrypt blockA) keyed = .next t) ∧
      (cmdReady (Instr.decrypt blockA).op keyed = true ∧ ∃ t, exec (.decrypt blockA) keyed = .next t) :=
  ⟨⟨rfl, _, rfl⟩, ⟨rfl, _, rfl⟩, ⟨rfl, _, rfl⟩, ⟨rfl, _, rfl⟩⟩

theorem witness_BlockCommandWaitsForKey :
    State.reset.sv = false ∧
      ((atCommand (.encrypt blockA) State.reset).sv = false ∧ (atCommand (.encrypt blockA) State.reset).ph = .idle ∧
        (atCommand (.encrypt blockA) State.reset).host = .command (encode (.encrypt blockA)) :: []) ∧
      ((atCommand (.decrypt blockA) State.reset).sv = false ∧ (atCommand (.decrypt blockA) State.reset).ph = .idle ∧
        (atCommand (.decrypt blockA) State.reset).host = .command (encode (.decrypt blockA)) :: []) := by decide

theorem witness_TryKeyDecryptsUnderTheNewKey : State.reset.busy = false := rfl

theorem witness_LatencyByKindOnly :
    (SameImplementation keyed answered ∧ ∃ t, step keyed = .next t) ∧ (0 ≤ 16 ∧ 16 ≤ 16) ∧
      ((Instr.encrypt 1).op = (Instr.encrypt 2).op ∨
        ((Instr.encrypt 1).op.getLsbD 1 = true ∧ (Instr.encrypt 2).op.getLsbD 1 = true)) ∧
      ((Instr.encrypt 1).op = (Instr.decrypt 2).op ∨
        ((Instr.encrypt 1).op.getLsbD 1 = true ∧ (Instr.decrypt 2).op.getLsbD 1 = true)) ∧
      cmdReady (Instr.encrypt 1).op keyed = true ∧ cmdReady (Instr.decrypt 2).op answered = true ∧
      (∃ t, exec (.encrypt 1) keyed = .next t) ∧ ∃ v, exec (.decrypt 2) answered = .next v :=
  ⟨⟨⟨rfl, rfl⟩, _, rfl⟩, ⟨by decide, by decide⟩, .inl rfl, .inr ⟨rfl, rfl⟩, rfl, rfl, ⟨_, rfl⟩, ⟨_, rfl⟩⟩

theorem witness_StepRunsDecodedCommand :
    (atCommand (.decrypt resultA) keyed).host = .command (encode (.decrypt resultA)) :: [] := rfl

/-- Accepted; not presented; presented to a busy block; presented before a key; and, with an idle block, a NOP accepted,
nothing presented, and no event. -/
theorem witness_AcceptanceRule :
    ((present (.encrypt blockA)).rst = false ∧ (present (.encrypt blockA)).cmdValid = true ∧
        cmdReady (present (.encrypt blockA)).cmdOp (atEdge (present (.encrypt blockA)) keyed) = true) ∧
      (quiet.rst = false ∧ ¬(quiet.cmdValid = true ∧ cmdReady quiet.cmdOp (atEdge quiet keyed) = true)) ∧
      ¬((present (.nop 0)).cmdValid = true ∧
        cmdReady (present (.nop 0)).cmdOp (atEdge (present (.nop 0)) (inKey 1)) = true) ∧
      ¬((present (.encrypt 0)).cmdValid = true ∧
        cmdReady (present (.encrypt 0)).cmdOp (atEdge (present (.encrypt 0)) State.reset) = true) ∧
      ((present (.nop 7)).rst = false ∧ (atEdge (present (.nop 7)) keyed).ph = .idle ∧ (present (.nop 7)).cmdOp = 0b00 ∧
        (atEdge quiet keyed).ph = .idle) ∧
      (keyed.host = [] ∧ keyed.ph = .idle) ∧ (inBlock 3).host = [] := by decide

theorem witness_CoincidencesAtOneEdge :
    (atEdge { present (.loadkey 1) with rst := true } (inKey 5)).host = .edge { present (.loadkey 1) with rst := true } :: [] ∧
      (present (.loadkey 1)).rst = false ∧ (atEdge (present (.loadkey 1)) (inKey 5)).busy = true ∧
      (inBlock 5).busy = true ∧ (inBlock 5).sv = true := by decide

/-- NOP, LOADKEY, ENCRYPT and DECRYPT presented whole to a block that is busy with an ENCRYPT, with SV = 1. -/
theorem witness_wholeCommandWaits :
    ((inBlock 5).busy = true ∧ (inBlock 5).sv = true) ∧ cmdReady (Instr.nop 7).op (inBlock 5) = false ∧
      cmdReady (Instr.loadkey keyA).op (inBlock 5) = false ∧ cmdReady (Instr.encrypt blockA).op (inBlock 5) = false ∧
      cmdReady (Instr.decrypt blockA).op (inBlock 5) = false := by decide

theorem witness_LoadkeyAcceptingEdge :
    Presents (present (.loadkey keyA)) (.loadkey keyA) ∧ (atEdge (present (.loadkey keyA)) answered).busy = false :=
  ⟨⟨rfl, rfl, rfl, rfl⟩, rfl⟩

/-- The first and the last schedule micro-step. -/
theorem witness_ScheduleMicroStep :
    (quiet.rst = false ∧ (atEdge quiet (inKey 1)).busy = true ∧ (atEdge quiet (inKey 1)).ph = .ks ∧
        (atEdge quiet (inKey 1)).rnd.toNat = (0 : StoreIndex).val + 1) ∧
      ((atEdge quiet (inKey 16)).busy = true ∧ (atEdge quiet (inKey 16)).ph = .ks ∧
        (atEdge quiet (inKey 16)).rnd.toNat = (15 : StoreIndex).val + 1) := by decide +kernel

theorem witness_BlockAcceptingEdge :
    (Presents (present (.encrypt blockA)) (.encrypt blockA) ∧ Presents (present (.decrypt blockA)) (.decrypt blockA)) ∧
      keyed.busy = false ∧ keyed.sv = true :=
  ⟨⟨⟨rfl, rfl, rfl, rfl⟩, ⟨rfl, rfl, rfl, rfl⟩⟩, rfl, rfl⟩

/-- The first, the last but one and the last block micro-step. -/
theorem witness_BlockMicroStep :
    (quiet.rst = false ∧ (atEdge quiet (inBlock 0)).busy = true ∧ (atEdge quiet (inBlock 0)).ph = .bt ∧
        (atEdge quiet (inBlock 0)).rnd.toNat = (0 : StoreIndex).val) ∧
      (atEdge quiet (inBlock 14)).rnd.toNat = (14 : StoreIndex).val ∧
      ((atEdge quiet (inBlock 15)).busy = true ∧ (atEdge quiet (inBlock 15)).ph = .bt ∧
        (atEdge quiet (inBlock 15)).rnd.toNat = (15 : StoreIndex).val) := by decide +kernel

theorem witness_ResetStepClearsFlagsOnly :
    (atEdge { quiet with rst := true } (inBlock 3)).host = .edge { quiet with rst := true } :: [] := rfl

/-- A state with an edge that presents a command, further edges and a last edge to come. -/
def atEdges (i : Instr) (n : Nat) (tail : List HostEvent) (s : State) : State :=
  { s with host := .edge (present i) :: edges (List.replicate n quiet) ++ tail }

theorem present_presents (i : Instr) : Presents (present i) i := ⟨rfl, rfl, rfl, rfl⟩

theorem quiet_noReset (n : Nat) : NoReset (List.replicate n quiet) := fun p h => by
  rw [List.eq_of_mem_replicate h]; rfl

/-- A LOADKEY abandoned at once, one abandoned with its last edge due, and an ENCRYPT. -/
theorem witness_ResetAbandonsTheCommand :
    (Presents (present (.loadkey keyA)) (.loadkey keyA) ∧ NoReset (List.replicate 0 quiet) ∧ NoReset (List.replicate 15 quiet) ∧
        Presents (present (.encrypt blockA)) (.encrypt blockA)) ∧
      cmdReady (Instr.loadkey keyA).op (atEdges (.loadkey keyA) 0 [.edge { quiet with rst := true }] answered) = true ∧
      (atEdges (.loadkey keyA) 0 [.edge { quiet with rst := true }] answered).host =
        .edge (present (.loadkey keyA)) :: edges (List.replicate 0 quiet) ++ .edge { quiet with rst := true } :: [] ∧
      (atEdges (.loadkey keyA) 15 [.edge { quiet with rst := true }] answered).host =
        .edge (present (.loadkey keyA)) :: edges (List.replicate 15 quiet) ++ .edge { quiet with rst := true } :: [] ∧
      cmdReady (Instr.encrypt blockA).op (atEdges (.encrypt blockA) 15 [.edge { quiet with rst := true }] answered) = true ∧
      (List.replicate 0 quiet).length + 1 < paceLatency answered.keyPace ∧
      (List.replicate 15 quiet).length + 1 < paceLatency answered.keyPace ∧
      (List.replicate 15 quiet).length + 1 < paceLatency answered.blockPace ∧
      ({ quiet with rst := true } : Pins).rst = true :=
  ⟨⟨present_presents _, quiet_noReset _, quiet_noReset _, present_presents _⟩, rfl, rfl, rfl, rfl, by decide, by decide,
    by decide, rfl⟩

theorem witness_FlagsWhileACommandRuns :
    (Presents (present (.loadkey keyA)) (.loadkey keyA) ∧ NoReset (List.replicate 0 quiet) ∧ NoReset (List.replicate 15 quiet) ∧
        Presents (present (.decrypt blockA)) (.decrypt blockA)) ∧
      cmdReady (Instr.loadkey keyA).op (atEdges (.loadkey keyA) 15 [] answered) = true ∧
      cmdReady (Instr.decrypt blockA).op (atEdges (.decrypt blockA) 0 [] answered) = true ∧
      (List.replicate 15 quiet).length + 1 < paceLatency answered.keyPace ∧
      (List.replicate 0 quiet).length + 1 < paceLatency answered.blockPace ∧
      (atEdges (.decrypt blockA) 0 [] answered).host =
        .edge (present (.decrypt blockA)) :: edges (List.replicate 0 quiet) ++ [] :=
  ⟨⟨present_presents _, quiet_noReset _, quiet_noReset _, present_presents _⟩, rfl, rfl, by decide, by decide, rfl⟩

/-- The reference timing, and all rounds at the accepting edge. -/
theorem witness_LoadkeyLevelsAgree :
    ((atEdges (.loadkey keyA) 16 [] answered).busy = false ∧ Presents (present (.loadkey keyA)) (.loadkey keyA) ∧
        NoReset (List.replicate 16 quiet) ∧ (List.replicate 16 quiet).length + 1 = paceLatency answered.keyPace ∧
        (atEdges (.loadkey keyA) 16 [] answered).host =
          .edge (present (.loadkey keyA)) :: edges (List.replicate 16 quiet) ++ []) ∧
      NoReset [] ∧ ([] : List Pins).length + 1 = paceLatency unrolled :=
  ⟨⟨rfl, present_presents _, quiet_noReset _, rfl, rfl⟩, quiet_noReset 0, rfl⟩

theorem witness_BlockLevelsAgree :
    ((atEdges (.encrypt blockA) 16 [] keyed).busy = false ∧ (atEdges (.encrypt blockA) 16 [] keyed).sv = true ∧
        Presents (present (.encrypt blockA)) (.encrypt blockA) ∧ Presents (present (.decrypt blockA)) (.decrypt blockA) ∧
        NoReset (List.replicate 16 quiet) ∧ (List.replicate 16 quiet).length + 1 = paceLatency keyed.blockPace ∧
        (atEdges (.encrypt blockA) 16 [] keyed).host =
          .edge (present (.encrypt blockA)) :: edges (List.replicate 16 quiet) ++ []) ∧
      NoReset [] ∧ ([] : List Pins).length + 1 = paceLatency unrolled :=
  ⟨⟨rfl, rfl, present_presents _, present_presents _, quiet_noReset _, rfl, rfl⟩, quiet_noReset 0, rfl⟩

theorem keyed_inv : Inv keyed := inv_of_idle rfl rfl rfl fun _ => rfl

theorem answered_inv : Inv answered := inv_of_idle rfl rfl rfl fun _ => rfl

theorem inKey_inv {r : Nat} (h1 : 1 ≤ r) (h2 : r ≤ 16) : Inv (inKey r) := by
  have hr : (inKey r).rnd.toNat = r := rndOf_toNat (by omega)
  have hd : roundsBy referencePace (r - 1) = r - 1 := roundsBy_reference (by omega)
  refine ⟨?_, ⟨fun _ => ?_, (fun h => by cases h)⟩, (fun h => by cases h), fun _ => ⟨by rw [hr]; rfl, fun _ _ => rfl⟩⟩
  · show true = true ∧ false = false ∧ 1 ≤ (inKey r).rnd.toNat ∧ (inKey r).rnd.toNat ≤ 16
    exact ⟨rfl, rfl, by omega, by omega⟩
  · show r - 1 < 16 ∧ (inKey r).rnd.toNat = roundsBy referencePace (r - 1) + 1
    omega

theorem inBlock_inv {i : Nat} (h : i ≤ 15) : Inv (inBlock i) := by
  have hr : (inBlock i).rnd.toNat = i := rndOf_toNat (by omega)
  have hd : roundsBy referencePace i = i := roundsBy_reference (by omega)
  refine ⟨?_, ⟨(fun h => by cases h), fun _ => ?_⟩, fun _ => rfl, (fun h => by cases h)⟩
  · show true = true ∧ true = true ∧ false = false ∧ (inBlock i).rnd.toNat ≤ 15
    exact ⟨rfl, rfl, rfl, by omega⟩
  · show i < 16 ∧ (inBlock i).rnd.toNat = roundsBy referencePace i
    omega

theorem witness_StepKeepsInvariant :
    (Inv keyed ∧ ∃ t, step keyed = .next t) ∧ (Inv (inKey 16) ∧ ∃ t, step (inKey 16) = .next t) ∧
      (Inv (inBlock 15) ∧ ∃ t, step (inBlock 15) = .next t) :=
  ⟨⟨keyed_inv, _, rfl⟩, ⟨inKey_inv (by decide) (by decide), _, rfl⟩, ⟨inBlock_inv (by decide), _, rfl⟩⟩

/-- A reset step from power-up, and one in mid-command. -/
theorem witness_ResetHasInvariant :
    (atEdge { quiet with rst := true } State.powerUp).host = .edge { quiet with rst := true } :: [] ∧
      ({ quiet with rst := true } : Pins).rst = true := ⟨rfl, rfl⟩

theorem witness_NoStepStops :
    resets (atEdge { quiet with rst := true } State.powerUp) ∧ resets (atEdge { quiet with rst := true } (inKey 5)) :=
  ⟨⟨_, rfl, rfl⟩, ⟨_, rfl, rfl⟩⟩

theorem witness_EveryCommandEnds :
    (Inv (inKey 1) ∧ (inKey 1).busy = true ∧ NoResetEvent (inKey 1).host) ∧
      (Inv (inBlock 15) ∧ (inBlock 15).busy = true ∧ NoResetEvent (inBlock 15).host) :=
  ⟨⟨inKey_inv (by decide) (by decide), rfl, fun _ h => by cases h⟩, ⟨inBlock_inv (by decide), rfl, fun _ h => by cases h⟩⟩

theorem atEdge_inv {s : State} (h : Inv s) (p : Pins) : Inv (atEdge p s) := inv_outside h s.clock _

theorem atCommand_inv {s : State} (h : Inv s) (i : Instr) : Inv (atCommand i s) := inv_outside h s.clock _

/-- Each of the changes that the statement lists. -/
theorem witness_PhaseChangesOnlyAsListed :
    (Inv (atEdge (present (.loadkey keyA)) keyed) ∧
        ∃ t, step (atEdge (present (.loadkey keyA)) keyed) = .next t ∧ Phase.idle ≠ t.ph) ∧
      (Inv (atEdge (present (.encrypt blockA)) keyed) ∧
        ∃ t, step (atEdge (present (.encrypt blockA)) keyed) = .next t ∧ Phase.idle ≠ t.ph) ∧
      (Inv (inKey 16) ∧ ∃ t, step (inKey 16) = .next t ∧ (inKey 16).ph ≠ t.ph) ∧
      (Inv (inBlock 15) ∧ ∃ t, step (inBlock 15) = .next t ∧ (inBlock 15).ph ≠ t.ph) ∧
      (Inv (atEdge { quiet with rst := true } (inKey 5)) ∧
        ∃ t, step (atEdge { quiet with rst := true } (inKey 5)) = .next t ∧ Phase.ks ≠ t.ph) ∧
      (Inv (atEdge { quiet with rst := true } (inBlock 5)) ∧
        ∃ t, step (atEdge { quiet with rst := true } (inBlock 5)) = .next t ∧ Phase.bt ≠ t.ph) :=
  ⟨⟨atEdge_inv keyed_inv _, _, rfl, by decide⟩, ⟨atEdge_inv keyed_inv _, _, rfl, by decide⟩,
    ⟨inKey_inv (by decide) (by decide), _, rfl, by decide +kernel⟩, ⟨inBlock_inv (by decide), _, rfl, by decide +kernel⟩,
    ⟨atEdge_inv (inKey_inv (by decide) (by decide)) _, _, rfl, by decide⟩,
    ⟨atEdge_inv (inBlock_inv (by decide)) _, _, rfl, by decide⟩⟩

/-- A store write by a LOADKEY in progress, by a whole one, and at an accepting edge that performs rounds at once. -/
theorem witness_OnlyLoadkeyWritesTheKey :
    (Inv (atEdge (present (.loadkey 1)) keyed) ∧ ∃ t, step (atEdge (present (.loadkey 1)) keyed) = .next t ∧ keyA ≠ t.key) ∧
      (Inv (keyRun keyA atReset 0) ∧
        ∃ t, step (keyRun keyA atReset 0) = .next t ∧ (keyRun keyA atReset 0).k ≠ t.k) ∧
      (Inv (atCommand (.loadkey keyA) atReset) ∧
        ∃ t, step (atCommand (.loadkey keyA) atReset) = .next t ∧ atReset.k ≠ t.k) ∧
      (Inv (atEdge (present (.loadkey keyA)) { atReset with keyPace := unrolled }) ∧
        ∃ t, step (atEdge (present (.loadkey keyA)) { atReset with keyPace := unrolled }) = .next t ∧ atReset.k ≠ t.k) :=
  ⟨⟨atEdge_inv keyed_inv _, _, rfl, by decide⟩, ⟨inv_keyRun keyA atReset (by decide), _, rfl, by decide +kernel⟩,
    ⟨inv_of_idle rfl rfl rfl (fun h => by cases h), _, rfl, by decide +kernel⟩,
    ⟨inv_of_idle rfl rfl rfl (fun h => by cases h), _, rfl, by decide +kernel⟩⟩

theorem witness_OnlyBlockCompletionWritesResult :
    (Inv (inBlock 15) ∧ ∃ t, step (inBlock 15) = .next t ∧ (inBlock 15).dout ≠ t.dout) ∧
      (Inv (atCommand (.encrypt blockA) keyed) ∧
        ∃ t, step (atCommand (.encrypt blockA) keyed) = .next t ∧ keyed.dout ≠ t.dout) ∧
      (Inv (atEdge (present (.encrypt blockA)) { keyed with blockPace := unrolled }) ∧
        ∃ t, step (atEdge (present (.encrypt blockA)) { keyed with blockPace := unrolled }) = .next t ∧ keyed.dout ≠ t.dout) :=
  ⟨⟨inBlock_inv (by decide), _, rfl, by decide +kernel⟩, ⟨atCommand_inv keyed_inv _, _, rfl, by decide +kernel⟩,
    ⟨inv_of_idle rfl rfl rfl (fun _ => rfl), _, rfl, by decide +kernel⟩⟩

/-- SV falls and rises, DV falls and rises, each way that the statement lists. -/
theorem witness_FlagsChangeOnlyAsListed :
    (Inv (atEdge { quiet with rst := true } answered) ∧
        ∃ t, step (atEdge { quiet with rst := true } answered) = .next t ∧ t.sv = false ∧ t.dv = false) ∧
      (Inv (atEdge (present (.loadkey 1)) answered) ∧
        ∃ t, step (atEdge (present (.loadkey 1)) answered) = .next t ∧ answered.sv = true ∧ t.sv = false) ∧
      (Inv (inKey 16) ∧ ∃ t, step (inKey 16) = .next t ∧ (inKey 16).sv = false ∧ t.sv = true) ∧
      (Inv (atCommand (.loadkey 1) State.reset) ∧
        ∃ t, step (atCommand (.loadkey 1) State.reset) = .next t ∧ State.reset.sv = false ∧ t.sv = true) ∧
      (Inv (atEdge (present (.decrypt 1)) answered) ∧
        ∃ t, step (atEdge (present (.decrypt 1)) answered) = .next t ∧ answered.dv = true ∧ t.dv = false) ∧
      (Inv (inBlock 15) ∧ ∃ t, step (inBlock 15) = .next t ∧ (inBlock 15).dv = false ∧ t.dv = true) ∧
      (Inv (atCommand (.decrypt 1) keyed) ∧
        ∃ t, step (atCommand (.decrypt 1) keyed) = .next t ∧ keyed.dv = false ∧ t.dv = true) :=
  ⟨⟨atEdge_inv answered_inv _, _, rfl, rfl, rfl⟩, ⟨atEdge_inv answered_inv _, _, rfl, rfl, rfl⟩,
    ⟨inKey_inv (by decide) (by decide), _, rfl, rfl, rfl⟩,
    ⟨inv_of_idle rfl rfl rfl (fun h => by cases h), _, rfl, rfl, rfl⟩,
    ⟨atEdge_inv answered_inv _, _, rfl, rfl, rfl⟩, ⟨inBlock_inv (by decide), _, rfl, rfl, rfl⟩,
    ⟨atCommand_inv keyed_inv _, _, rfl, rfl, rfl⟩⟩

/-- Different keys, schedules, operands and results; the same control. -/
theorem witness_ControlIsIndependentOfData :
    SameControl (atEdge (present (.encrypt 1)) answered)
      (atEdge (present (.encrypt 2)) { answered with key := 0, k := schedule 0, dout := 5 }) := rfl

/-- A LOADKEY in progress, of which no word is stored yet: the store, KEY, DOUT and L differ. -/
theorem witness_UnwrittenRegistersAreNeverSeen :
    (AgreeOnWritten (inKey 1) { inKey 1 with key := 0, k := Vector.replicate 16 7, dout := 5, l := 1 } ∧ SequencerOk (inKey 1)) ∧
      SameImplementation keyed atReset ∧ keyed.clock = atReset.clock ∧ keyed.host = atReset.host :=
  ⟨⟨⟨⟨rfl, rfl⟩, fun _ => rfl, rfl, rfl, rfl, rfl, rfl, rfl, rfl, (fun h => by cases h),
        fun _ => ⟨rfl, rfl, fun i h => by
          have : i.val + 1 < 1 := h
          omega⟩, (fun h => by cases h), (fun h => by cases h)⟩,
      (inKey_inv (by decide) (by decide)).sequencer⟩, ⟨rfl, rfl⟩, rfl, rfl⟩

theorem witness_SubkeyPortShowsTheSchedule : (Inv answered ∧ answered.sv = true) ∧ (Inv (inBlock 7) ∧ (inBlock 7).sv = true) :=
  ⟨⟨answered_inv, rfl⟩, ⟨inBlock_inv (by decide), rfl⟩⟩

theorem witness_StatusFieldsAreTheFlags : answered.dv = true := rfl

/-- Two blocks that each take a step, in a system of two. -/
theorem witness_InstancesShareNothing :
    (∃ after, stepInstance 0 #v[keyed, inKey 3] = .next after) ∧ (∃ after, stepInstance 1 #v[keyed, inKey 3] = .next after) ∧
      (0 : Fin 2) ≠ 1 ∧ (#v[keyed, State.reset] : Vector State 2)[(0 : Fin 2)] = (#v[keyed, inKey 3] : Vector State 2)[(0 : Fin 2)] :=
  ⟨⟨_, rfl⟩, ⟨_, rfl⟩, by decide, rfl⟩

end Sys2Proof.Tests
end

section
/-! Settles the notation of spec/00_scope.md: selection by a table (R9) and rotation of a half key (R11). Both go through
the position laws `pos_sel` and `pos_rotl28`. -/

namespace Sys2Proof.Machine

/-- R11's formula. The mask cuts the left-shifted part to 28 bits and leaves the right-shifted part whole. -/
theorem toNat_rotl28 (x : HalfKey) (s : Nat) :
    (rotl28 x s).toNat = ((x.toNat <<< s) ||| (x.toNat >>> (28 - s))) &&& 0xFFFFFFF := by
  have right_whole : x.toNat >>> (28 - s) % 2 ^ 28 = x.toNat >>> (28 - s) :=
    Nat.mod_eq_of_lt ((Nat.shiftRight_le _ _).trans_lt x.isLt)
  calc (rotl28 x s).toNat
      = (x.toNat <<< s % 2 ^ 28) ||| (x.toNat >>> (28 - s)) := by
        rw [rotl28, BitVec.toNat_or, BitVec.toNat_shiftLeft, BitVec.toNat_ushiftRight]
    _ = ((x.toNat <<< s) ||| (x.toNat >>> (28 - s))) % 2 ^ 28 := by rw [Nat.or_mod_two_pow, right_whole]
    _ = ((x.toNat <<< s) ||| (x.toNat >>> (28 - s))) &&& 0xFFFFFFF := (Nat.and_two_pow_sub_one_eq_mod _ 28).symm

/-- Selection in bit indices: `r[M - q] = v[N - T[q]]` (R9). -/
theorem getLsbD_sel {m n : Nat} {table : List Nat} (v : BitVec n) (hm : table.length = m) {q : Nat} (h1 : 1 ≤ q)
    (h2 : q ≤ m) : (sel m table v).getLsbD (m - q) = v.getLsbD (n - table.getD (q - 1) 0) := by
  rw [← pos_eq_getLsbD, ← pos_eq_getLsbD, pos_sel v hm h1 h2]

/-- Settles O5, by the bits of the accumulated selection (`selOnto_testBit`, through `pos_sel`). -/
theorem selectionCopiesPositions : Obligations.SelectionCopiesPositions := by
  intro m n table v q hm _ h1 h2
  exact ⟨pos_sel v hm h1 h2, getLsbD_sel v hm h1 h2⟩

/-- Settles O6: the formula holds for every amount, the positions by whether the bit wraps around. -/
theorem rotationIsCircular : Obligations.RotationIsCircular := by
  intro x s hs
  exact ⟨toNat_rotl28 x s, fun p h1 h2 => pos_rotl28 x hs h1 h2⟩

end Sys2Proof.Machine
end

section
/-! Settles the invariant of the machine and what it says of one step (spec/10_state.md R21 to R28, R34, R37). A step from a
state that satisfies the invariant is one of six (`InvStep`); each statement is a case analysis over these six. -/

namespace Sys2Proof.Machine

/-! ## What starts and what completes a command -/

/-- Under the invariant a block that is not busy is idle (R27, R37). -/
theorem inv_idle_of_not_busy {s : State} (h : Inv s) (hb : s.busy = false) : s.ph = .idle := by
  rcases inv_phase h with hp | hp | hp
  · exact hp
  · simp [(inv_ks h hp).1] at hb
  · simp [(inv_bt h hp).1] at hb

/-- Under the invariant only an idle block accepts a command (R78). -/
theorem inv_idle_of_ready {s : State} {op : OpCode} (h : Inv s) (hc : cmdReady op s = true) : s.ph = .idle :=
  inv_idle_of_not_busy h ((cmdReady_iff op s).1 hc).1

/-- A block command is ready with SV = 1 only (R72, R78). -/
theorem sv_of_blockReady {op : OpCode} {s : State} (hc : cmdReady op s = true) (ho : op = 0b10 ∨ op = 0b11) :
    s.sv = true := by
  have hl : op.getLsbD 1 ≠ false := by rcases ho with rfl | rfl <;> decide
  exact ((cmdReady_iff op s).1 hc).2.resolve_left hl

/-- A pace of latency 1 has its last edge at the accepting edge (R6). -/
theorem paceLatency_eq_one {p : Pace} : paceLatency p = 1 ↔ p.last = 0 := by
  simp [paceLatency]

/-- The next step accepts a block command in an idle block whose schedule is valid (R78, R150, R151). -/
def BlockStarts (s : State) : Prop :=
  s.ph = .idle ∧ s.sv = true ∧
    ∃ block, acceptedBy s = some (.encrypt block) ∨ acceptedBy s = some (.decrypt block)

/-- The next step accepts LOADKEY `key` in an idle block (R78, R120). -/
def KeyStarts (key : KeyValue) (s : State) : Prop := s.ph = .idle ∧ acceptedBy s = some (.loadkey key)

/-- The next step is edge `a` of LOADKEY `key`: its accepting edge, or a later one (R121, R122). -/
def KeyEdge (key : KeyValue) (a : Nat) (s : State) : Prop :=
  KeyStarts key s ∧ a = 0 ∨ s.ph = .ks ∧ key = s.key ∧ a = s.age + 1

/-- The next step is edge `a` of a block command: its accepting edge, or a later one (R152, R153). -/
def BlockEdge (a : Nat) (s : State) : Prop := BlockStarts s ∧ a = 0 ∨ s.ph = .bt ∧ a = s.age + 1

/-- The next step completes LOADKEY `key`: at the last edge of one in progress, or as it accepts one (R123, R14, R241). -/
def KeyEnds (key : KeyValue) (s : State) : Prop :=
  keyCompletes s ∧ key = s.key ∨ (wholeCommand s ∨ paceLatency s.keyPace = 1) ∧ KeyStarts key s

/-- The next step completes a block command: at the last edge of one in progress, or as it accepts one
(R154, R14, R241). -/
def BlockEnds (s : State) : Prop :=
  blockCompletes s ∨ (wholeCommand s ∨ paceLatency s.blockPace = 1) ∧ BlockStarts s

/-- `s` after the completion of a block command whose last halves are `l` and `r` (R154). -/
def blockDone (dir : Direction) (l r : Half) (s : State) : State :=
  { s with l := l, r := r, dir := dir, dout := finalPerm l r, dv := true, busy := false, ph := .idle, rnd := 0 }

theorem runBlock_eq_blockDone (dir : Direction) (block : Block) (s : State) :
    runBlock dir block s = blockDone dir (finalHalves s.k block dir).1 (finalHalves s.k block dir).2 s := rfl

/-- `s` at edge `a` of a pace, cycle `cl`, with `hst` still to come: the model's own fields (log entries 3, 4, 8). -/
def atPaceEdge (a cl : Nat) (hst : List HostEvent) (s : State) : State := { s with age := a, clock := cl, host := hst }

/-! ## The six things a step does under the invariant -/

/-- What a step does to a state `s` that satisfies the invariant. -/
inductive InvStep (s : State) : State → Prop where
  /-- An idle block stays as it is: nothing is accepted, or a NOP (R35, R155). -/
  | stays (cl : Nat) (hst : List HostEvent) (idle : s.ph = .idle) : InvStep s { s with clock := cl, host := hst }
  /-- A reset step (R220). -/
  | resets (cl : Nat) (hst : List HostEvent) (asserted : resets s) :
      InvStep s { resetStep s with clock := cl, host := hst }
  /-- A LOADKEY is in progress after the step (R121, R122). -/
  | keyRuns (key : KeyValue) (a cl : Nat) (hst : List HostEvent) (running : a < s.keyPace.last)
      (edge : KeyEdge key a s) : InvStep s (keyRun key (atPaceEdge a cl hst s) (roundsBy s.keyPace a))
  /-- A LOADKEY is complete after the step (R123). -/
  | keyEnds (key : KeyValue) (a cl : Nat) (hst : List HostEvent) (ends : KeyEnds key s) :
      InvStep s (loadKey key (atPaceEdge a cl hst s))
  /-- A block command is in progress after the step (R152, R153). -/
  | blockRuns (dir : Direction) (l r : Half) (a cl : Nat) (hst : List HostEvent) (running : a < s.blockPace.last)
      (edge : BlockEdge a s) : InvStep s (blockRun dir l r (atPaceEdge a cl hst s) (roundsBy s.blockPace a))
  /-- A block command is complete after the step (R154). -/
  | blockEnds (dir : Direction) (l r : Half) (a cl : Nat) (hst : List HostEvent) (ends : BlockEnds s) :
      InvStep s (blockDone dir l r (atPaceEdge a cl hst s))

/-- An edge with no reset that accepts nothing (R35). -/
theorem invStep_quietEdge {s : State} (h : Inv s) (hst : List HostEvent) :
    InvStep s (quietEdge { s with host := hst }) := by
  have h' : Inv { s with host := hst } := inv_outside h s.clock hst
  rcases inv_phase h with hp | hp | hp
  · rw [quietEdge_idle (s := { s with host := hst }) hp]
    exact .stays (s.clock + 1) hst hp
  · rw [quietEdge_key h' hp]
    split
    · next he => exact .keyEnds s.key (s.age + 1) (s.clock + 1) hst (.inl ⟨⟨hp, he⟩, rfl⟩)
    · next he =>
      have hl : s.age < s.keyPace.last := (h.pace.1 hp).1
      exact .keyRuns s.key (s.age + 1) (s.clock + 1) hst (Nat.lt_of_le_of_ne hl he) (.inr ⟨hp, rfl, rfl⟩)
  · obtain ⟨l, r, hq⟩ := quietEdge_block h' hp
    rw [hq]
    split
    · next he => exact .blockEnds s.dir l r (s.age + 1) (s.clock + 1) hst (.inl ⟨hp, he⟩)
    · next he =>
      have hl : s.age < s.blockPace.last := (h.pace.2 hp).1
      exact .blockRuns s.dir l r (s.age + 1) (s.clock + 1) hst (Nat.lt_of_le_of_ne hl he) (.inr ⟨hp, rfl⟩)

/-- The edge that accepts a block command, in either direction (R152, R241). -/
theorem invStep_acceptedBlock {s : State} (dir : Direction) (block : Block) (cl : Nat) (hst : List HostEvent)
    (hs : BlockStarts s) : InvStep s (acceptedBlock dir block { s with clock := cl, host := hst }) := by
  unfold acceptedBlock
  split
  · next hl =>
    rw [runBlock_eq_blockDone]
    exact .blockEnds dir _ _ 0 cl hst (.inr ⟨.inr (paceLatency_eq_one.2 hl), hs⟩)
  · next hl => exact .blockRuns dir _ _ 0 cl hst (Nat.pos_of_ne_zero hl) (.inl ⟨hs, rfl⟩)

/-- An edge that accepts a command (R78). -/
theorem invStep_acceptEdge {s : State} (i : Instr) (cl : Nat) (hst : List HostEvent) (hp : s.ph = .idle)
    (ha : acceptedBy s = some i) (hc : cmdReady i.op s = true) :
    InvStep s (acceptEdge i { s with clock := cl, host := hst }) := by
  cases i with
  | nop data => exact .stays cl hst hp
  | loadkey key =>
    rw [acceptEdge_loadkey]
    split
    · next hl => exact .keyEnds key 0 cl hst (.inr ⟨.inr (paceLatency_eq_one.2 hl), hp, ha⟩)
    · next hl => exact .keyRuns key 0 cl hst (Nat.pos_of_ne_zero hl) (.inl ⟨⟨hp, ha⟩, rfl⟩)
  | encrypt block =>
    rw [acceptEdge_encrypt]
    exact invStep_acceptedBlock _ block cl hst ⟨hp, sv_of_blockReady hc (.inl rfl), block, .inl ha⟩
  | decrypt block =>
    rw [acceptEdge_decrypt]
    exact invStep_acceptedBlock _ block cl hst ⟨hp, sv_of_blockReady hc (.inr rfl), block, .inr ha⟩

/-- A whole command at the transaction level (R77). -/
theorem invStep_transact {s : State} (i : Instr) (cl : Nat) (hst : List HostEvent) (hp : s.ph = .idle)
    (ha : acceptedBy s = some i) (hc : cmdReady i.op s = true) (hw : wholeCommand s) :
    InvStep s { transact i s with clock := cl, host := hst } := by
  cases i with
  | nop data => exact .stays cl hst hp
  | loadkey key => exact .keyEnds key s.age cl hst (.inr ⟨.inl hw, hp, ha⟩)
  | encrypt block =>
    exact .blockEnds .encrypt _ _ s.age cl hst (.inr ⟨.inl hw, hp, sv_of_blockReady hc (.inl rfl), block, .inl ha⟩)
  | decrypt block =>
    exact .blockEnds .decrypt _ _ s.age cl hst (.inr ⟨.inl hw, hp, sv_of_blockReady hc (.inr rfl), block, .inr ha⟩)

/-- Everything a step does to a state that satisfies the invariant. -/
theorem step_invStep {s t : State} (h : Inv s) (ht : step s = .next t) : InvStep s t := by
  cases step_effect ht with
  | edge hst quiet => exact invStep_quietEdge h hst
  | reset cl hst asserted quiet => exact .resets cl hst asserted
  | accept hst i accepted ready =>
    exact invStep_acceptEdge i _ hst (inv_idle_of_ready h ready) accepted ready
  | whole cl hst i accepted ready level =>
    exact invStep_transact i cl hst (inv_idle_of_ready h ready) accepted ready level

/-! ## The invariant -/

/-- Every reset step makes the invariant true, whatever the registers held (R37, R220). -/
theorem inv_resetStep (s : State) : Inv (resetStep s) := inv_of_idle rfl rfl rfl fun hv => by cases hv

/-- At every edge of a block command the schedule is valid (R150, R151). -/
theorem sv_of_blockEdge {s : State} {a : Nat} (h : Inv s) (he : BlockEdge a s) : s.sv = true := by
  rcases he with ⟨⟨-, hv, -⟩, -⟩ | ⟨hp, -⟩
  · exact hv
  · exact (inv_bt h hp).2.1

/-- Each of the six steps keeps the invariant. -/
theorem inv_of_invStep {s t : State} (h : Inv s) (ht : InvStep s t) : Inv t := by
  cases ht with
  | stays cl hst _ => exact inv_outside h cl hst
  | resets cl hst _ => exact inv_outside (inv_resetStep s) cl hst
  | keyRuns key a cl hst running _ => exact inv_keyRun key (atPaceEdge a cl hst s) running
  | keyEnds key a cl hst _ => exact inv_of_idle rfl rfl rfl fun _ => rfl
  | blockRuns dir l r a cl hst running edge =>
    have hv := sv_of_blockEdge h edge
    exact inv_blockRun dir l r (s := atPaceEdge a cl hst s) hv (h.schedule hv) running
  | blockEnds dir l r a cl hst _ => exact inv_of_idle rfl rfl rfl h.schedule

/-- Settles O48, by the six steps that the invariant leaves. -/
theorem stepKeepsInvariant : Obligations.StepKeepsInvariant := by
  intro s t h ht
  exact inv_of_invStep h (step_invStep h ht)

/-- Settles O49: an idle block without a valid schedule satisfies the invariant. -/
theorem resetHasInvariant : Obligations.ResetHasInvariant := by
  refine ⟨inv_resetStep State.reset, inv_resetStep, fun s p rest hh hr => ?_⟩
  exact ⟨_, step_edge hh, by rw [clockEdge_reset _ hr]; exact inv_resetStep _⟩

/-! ## What changes the phase, the key, the result and the flags -/

/-- Settles O52. -/
theorem phaseChangesOnlyAsListed : Obligations.PhaseChangesOnlyAsListed := by
  intro s t h ht hne
  cases step_invStep h ht with
  | stays => exact absurd rfl hne
  | resets cl hst asserted =>
    rcases inv_phase h with hp | hp | hp
    · exact absurd hp hne
    · exact .inr (.inr (.inl ⟨hp, rfl, .inr asserted⟩))
    · exact .inr (.inr (.inr ⟨hp, rfl, .inr asserted⟩))
  | keyRuns key a cl hst running edge =>
    rcases edge with ⟨⟨hp, ha⟩, -⟩ | ⟨hp, -⟩
    · exact .inl ⟨hp, rfl, key, ha⟩
    · exact absurd hp hne
  | keyEnds key a cl hst ends =>
    rcases ends with ⟨hk, -⟩ | ⟨-, hp, -⟩
    · exact .inr (.inr (.inl ⟨hk.1, rfl, .inl hk⟩))
    · exact absurd hp hne
  | blockRuns dir l r a cl hst running edge =>
    rcases edge with ⟨⟨hp, -, ha⟩, -⟩ | ⟨hp, -⟩
    · exact .inr (.inl ⟨hp, rfl, ha⟩)
    · exact absurd hp hne
  | blockEnds dir l r a cl hst ends =>
    rcases ends with hb | ⟨-, hp, -⟩
    · exact .inr (.inr (.inr ⟨hb.1, rfl, .inl hb⟩))
    · exact absurd hp hne

/-- KEY changes only to the operand of an accepted LOADKEY (R21). -/
theorem key_of_invStep {s t : State} (ht : InvStep s t) : s.key = t.key ∨ acceptedBy s = some (.loadkey t.key) := by
  cases ht with
  | stays | resets | blockRuns | blockEnds => exact .inl rfl
  | keyRuns key a cl hst running edge =>
    rcases edge with ⟨⟨-, ha⟩, -⟩ | ⟨-, hk, -⟩
    · exact .inr ha
    · exact .inl hk.symm
  | keyEnds key a cl hst ends =>
    rcases ends with ⟨-, hk⟩ | ⟨-, -, ha⟩
    · exact .inl hk.symm
    · exact .inr ha

/-- K changes only where a LOADKEY performs rounds (R22). An edge that accepts one and performs none leaves K. -/
theorem store_of_invStep {s t : State} (ht : InvStep s t) :
    s.k = t.k ∨ s.ph = .ks ∨
      ∃ key, acceptedBy s = some (.loadkey key) ∧ (wholeCommand s ∨ 0 < roundsBy s.keyPace 0) := by
  cases ht with
  | stays | resets | blockRuns | blockEnds => exact .inl rfl
  | keyRuns key a cl hst running edge =>
    rcases edge with ⟨⟨-, ha⟩, rfl⟩ | ⟨hp, -⟩
    · rcases Nat.eq_zero_or_pos (roundsBy s.keyPace 0) with h0 | h0
      · rw [h0]
        exact .inl (storeWithFirst_zero key s.k).symm
      · exact .inr (.inr ⟨key, ha, .inr h0⟩)
    · exact .inr (.inl hp)
  | keyEnds key a cl hst ends =>
    rcases ends with ⟨hk, -⟩ | ⟨hw | hl, -, ha⟩
    · exact .inr (.inl hk.1)
    · exact .inr (.inr ⟨key, ha, .inl hw⟩)
    · have h16 : roundsBy s.keyPace 0 = 16 := roundsBy_of_le (paceLatency_eq_one.1 hl).le
      exact .inr (.inr ⟨key, ha, .inr (by omega)⟩)

/-- Settles O53. -/
theorem onlyLoadkeyWritesTheKey : Obligations.OnlyLoadkeyWritesTheKey := by
  intro s t h ht
  have hs := step_invStep h ht
  exact ⟨(key_of_invStep hs).resolve_left, (store_of_invStep hs).resolve_left⟩

/-- The completion of a block command, in the words of R23 and R28. -/
theorem BlockEnds.cause {s : State} (h : BlockEnds s) :
    blockCompletes s ∨ (wholeCommand s ∨ paceLatency s.blockPace = 1) ∧
      ∃ block, acceptedBy s = some (.encrypt block) ∨ acceptedBy s = some (.decrypt block) :=
  h.imp_right fun ⟨hw, _, _, ha⟩ => ⟨hw, ha⟩

/-- The completion of a LOADKEY, in the words of R26. -/
theorem KeyEnds.cause {s : State} {key : KeyValue} (h : KeyEnds key s) :
    keyCompletes s ∨ (wholeCommand s ∨ paceLatency s.keyPace = 1) ∧ ∃ key, acceptedBy s = some (.loadkey key) := by
  rcases h with ⟨hk, -⟩ | ⟨hw, -, ha⟩
  · exact .inl hk
  · exact .inr ⟨hw, key, ha⟩

/-- Settles O54. -/
theorem onlyBlockCompletionWritesResult : Obligations.OnlyBlockCompletionWritesResult := by
  intro s t h ht hne
  cases step_invStep h ht with
  | stays | resets | keyRuns | keyEnds | blockRuns => exact absurd rfl hne
  | blockEnds dir l r a cl hst ends => exact ⟨rfl, rfl, ends.cause⟩

/-- SV falls only at a reset and at the acceptance of a LOADKEY (R26). -/
theorem sv_falls_of_invStep {s t : State} (h : Inv s) (ht : InvStep s t) (hs : s.sv = true) (hf : t.sv = false) :
    resets s ∨ ∃ key, acceptedBy s = some (.loadkey key) := by
  cases ht with
  | stays | blockRuns | blockEnds => exact absurd (hs.symm.trans hf) (by decide)
  | resets cl hst asserted => exact .inl asserted
  | keyRuns key a cl hst running edge =>
    rcases edge with ⟨⟨-, ha⟩, -⟩ | ⟨hp, -⟩
    · exact .inr ⟨key, ha⟩
    · simp [(inv_ks h hp).2.1] at hs
  | keyEnds => cases hf

/-- SV rises only at the completion of a LOADKEY (R26). -/
theorem sv_rises_of_invStep {s t : State} (ht : InvStep s t) (hs : s.sv = false) (hr : t.sv = true) :
    keyCompletes s ∨ (wholeCommand s ∨ paceLatency s.keyPace = 1) ∧ ∃ key, acceptedBy s = some (.loadkey key) := by
  cases ht with
  | stays | blockRuns | blockEnds => exact absurd (hs.symm.trans hr) (by decide)
  | resets | keyRuns => cases hr
  | keyEnds key a cl hst ends => exact ends.cause

/-- DV falls only at a reset and at the acceptance of a block command (R28). -/
theorem dv_falls_of_invStep {s t : State} (h : Inv s) (ht : InvStep s t) (hs : s.dv = true) (hf : t.dv = false) :
    resets s ∨ ∃ block, acceptedBy s = some (.encrypt block) ∨ acceptedBy s = some (.decrypt block) := by
  cases ht with
  | stays | keyRuns | keyEnds => exact absurd (hs.symm.trans hf) (by decide)
  | resets cl hst asserted => exact .inl asserted
  | blockRuns dir l r a cl hst running edge =>
    rcases edge with ⟨⟨-, -, ha⟩, -⟩ | ⟨hp, -⟩
    · exact .inr ha
    · simp [(inv_bt h hp).2.2.1] at hs
  | blockEnds => cases hf

/-- DV rises only at the completion of a block command (R28). -/
theorem dv_rises_of_invStep {s t : State} (ht : InvStep s t) (hs : s.dv = false) (hr : t.dv = true) :
    blockCompletes s ∨ (wholeCommand s ∨ paceLatency s.blockPace = 1) ∧
      ∃ block, acceptedBy s = some (.encrypt block) ∨ acceptedBy s = some (.decrypt block) := by
  cases ht with
  | stays | keyRuns | keyEnds => exact absurd (hs.symm.trans hr) (by decide)
  | resets | blockRuns => cases hr
  | blockEnds dir l r a cl hst ends => exact ends.cause

/-- Settles O55. -/
theorem flagsChangeOnlyAsListed : Obligations.FlagsChangeOnlyAsListed := by
  intro s t h ht
  have hs := step_invStep h ht
  exact ⟨sv_falls_of_invStep h hs, sv_rises_of_invStep hs, dv_falls_of_invStep h hs, dv_rises_of_invStep hs⟩

end Sys2Proof.Machine
end

section
/-! Settles the frame of every command, the status port, the flags while a command runs and its end (spec/10_state.md R25 to
R28, R31, R35, spec/70_reset_and_hazards.md R240). -/

namespace Sys2Proof.Machine

/-! ## The frame of a whole command and the status port -/

/-- What an accepted command answers, as a state (R31). -/
theorem eq_of_exec_ready {i : Instr} {s t : State} (hc : cmdReady i.op s = true) (ht : exec i s = .next t) :
    t = passEdges (latency i s) (transact i s) := by
  rw [exec_accepted hc] at ht
  exact (Host.Outcome.next.inj ht).symm

/-- Settles O31: each row of R31's table is the record update that the whole command is. -/
theorem commandsWriteOnlyTheirRegisters : Obligations.CommandsWriteOnlyTheirRegisters := by
  intro s t
  refine ⟨fun x hc ht => ?_, fun x hc ht => ?_, fun x hc ht => ?_, fun x hc ht => ?_, resetStep_eq s⟩
  all_goals
    cases eq_of_exec_ready hc ht
    rfl

/-- STATUS bit by bit (R25). -/
theorem getLsbD_statusWord (s : State) :
    (statusWord s).getLsbD 2 = s.busy ∧ (statusWord s).getLsbD 1 = s.sv ∧ (statusWord s).getLsbD 0 = s.dv := by
  unfold statusWord
  cases s.busy <;> cases s.sv <;> cases s.dv <;> decide

/-- With DV = 1 the result port shows DOUT (R28). -/
theorem rspData_of_dv {s : State} (h : s.dv = true) : rspData s = s.dout := by
  simp [rspData, h]

/-- Settles O59. -/
theorem statusFieldsAreTheFlags : Obligations.StatusFieldsAreTheFlags := by
  intro s p
  obtain ⟨h2, h1, h0⟩ := getLsbD_statusWord s
  exact ⟨h2, h1, h0, rfl, rfl, rfl, rspData_of_dv, rfl, cmdReady_iff p.cmdOp s⟩

/-! ## Edges at which the host presents a command, and edges of a busy block -/

/-- The command that a code and an operand at the ports make (R70, R72). -/
theorem decode_op_append_data (i : Instr) : decode (i.op ++ i.data) = i := by
  unfold decode
  rw [Sys2Proof.Laws.Fields.op_of_append, Sys2Proof.Laws.Fields.data_of_append]
  cases i <;> rfl

/-- The step that handles the accepting edge of a command (R78). -/
theorem step_accepts {s : State} {p : Pins} {i : Instr} {rest : List HostEvent} (hh : s.host = .edge p :: rest)
    (hp : Presents p i) (hc : cmdReady i.op s = true) :
    step s = .next (acceptEdge i { s with clock := s.clock + 1, host := rest }) := by
  obtain ⟨hr, hv, ho, hd⟩ := hp
  rw [step_edge hh, clockEdge_accept hr hv (by rw [ho]; exact hc), ho, hd, decode_op_append_data]
  rfl

/-- A busy block at an edge with no reset goes on, whatever is presented (R202). -/
theorem step_edge_busy {s : State} {p : Pins} {rest : List HostEvent} (hh : s.host = .edge p :: rest)
    (hr : p.rst = false) (hb : s.busy = true) : step s = .next (quietEdge { s with host := rest }) := by
  rw [step_edge hh, clockEdge_busy (s := { s with host := rest }) hr hb]

/-- Edges that are no resets, one after the other: `f j hst` is the state after `j` of them with `hst` still to come. -/
theorem runSteps_edges {f : Nat → List HostEvent → State} {n : Nat}
    (hstep : ∀ j p hst, j < n → p.rst = false → step (f j (.edge p :: hst)) = .next (f (j + 1) hst))
    {ps : List Pins} (hr : NoReset ps) (rest : List HostEvent) {j : Nat} (hj : j + ps.length ≤ n) :
    runSteps ps.length (f j (edges ps ++ rest)) = .next (f (j + ps.length) rest) := by
  induction ps generalizing j with
  | nil => rfl
  | cons p ps ih =>
    obtain ⟨hp, hps⟩ := List.forall_mem_cons.1 hr
    rw [List.length_cons] at hj ⊢
    have hs : step (f j (edges (p :: ps) ++ rest)) = .next (f (j + 1) (edges ps ++ rest)) :=
      hstep j p _ (by omega) hp
    rw [runSteps_succ hs, ih hps (by omega), Nat.add_right_comm, Nat.add_assoc]

/-! ## A command in progress, edge by edge -/

/-- An edge of a LOADKEY in progress, before the last of its pace (R122, R241). -/
theorem quietEdge_keyRun (key : KeyValue) {s : State} (h : s.age + 1 < s.keyPace.last) :
    quietEdge (keyRun key s (roundsBy s.keyPace s.age)) =
      keyRun key (nextEdge s) (roundsBy s.keyPace (s.age + 1)) := by
  have ht : tick (passEdges 1 (keyRun key s (roundsBy s.keyPace s.age))) =
      keyRun key (nextEdge s) (roundsBy s.keyPace s.age) := rfl
  have ha := advance_keyRun key (nextEdge s) (n := roundsBy s.keyPace s.age) (roundsBy_of_lt (by omega))
    (roundsBy_succ_ge _ _)
  rw [quietEdge, ht]
  exact ha.trans (if_neg (Nat.not_le.2 h))

/-- State `s` with a block command on `block` in progress, of which `n` rounds are done (R146, R153). -/
def blockRunOf (dir : Direction) (block : Block) (s : State) (n : Nat) : State :=
  blockRun dir (blockHalves s.k dir (hi32 (initialPerm block)) (lo32 (initialPerm block)) n).1
    (blockHalves s.k dir (hi32 (initialPerm block)) (lo32 (initialPerm block)) n).2 s n

/-- An edge of a block command in progress, before the last of its pace (R153, R241). -/
theorem quietEdge_blockRunOf (dir : Direction) (block : Block) {s : State} (h : s.age + 1 < s.blockPace.last) :
    quietEdge (blockRunOf dir block s (roundsBy s.blockPace s.age)) =
      blockRunOf dir block (nextEdge s) (roundsBy s.blockPace (s.age + 1)) := by
  have ht : tick (passEdges 1 (blockRunOf dir block s (roundsBy s.blockPace s.age))) =
      blockRunOf dir block (nextEdge s) (roundsBy s.blockPace s.age) := rfl
  have ha := advance_blockRun dir block (nextEdge s) (n := roundsBy s.blockPace s.age) (roundsBy_of_lt (by omega))
    (roundsBy_succ_ge _ _)
  rw [quietEdge, ht]
  exact ha.trans (if_neg (Nat.not_le.2 h))

/-- State `s`, `j` edges after the edge that accepted LOADKEY `key`, with `hst` still to come. -/
def keyAfter (key : KeyValue) (s : State) (j : Nat) (hst : List HostEvent) : State :=
  keyRun key (atPaceEdge j (s.clock + 1 + j) hst s) (roundsBy s.keyPace j)

/-- State `s`, `j` edges after the edge that accepted a block command on `block`, with `hst` still to come. -/
def blockAfter (dir : Direction) (block : Block) (s : State) (j : Nat) (hst : List HostEvent) : State :=
  blockRunOf dir block (atPaceEdge j (s.clock + 1 + j) hst s) (roundsBy s.blockPace j)

/-- Accepting edge and further edges of a LOADKEY, before the last of its pace (R121, R122, R241). -/
theorem runSteps_loadkey {s : State} {p : Pins} {ps : List Pins} {rest : List HostEvent} {key : KeyValue}
    (hp : Presents p (.loadkey key)) (hc : cmdReady (Instr.loadkey key).op s = true) (hr : NoReset ps)
    (hh : s.host = .edge p :: edges ps ++ rest) (hl : ps.length < s.keyPace.last) :
    runSteps (ps.length + 1) s = .next (keyAfter key s ps.length rest) := by
  have hs : step s = .next (keyAfter key s 0 (edges ps ++ rest)) := by
    rw [step_accepts hh hp hc, acceptEdge_loadkey]
    exact congrArg _ (if_neg (Nat.ne_zero_of_lt hl))
  rw [runSteps_succ hs, runSteps_edges (f := keyAfter key s) (n := ps.length) ?_ hr rest (by omega), Nat.zero_add]
  intro j q hst hj hq
  rw [step_edge_busy rfl hq rfl]
  exact congrArg _ (quietEdge_keyRun key (s := atPaceEdge j (s.clock + 1 + j) hst s) (Nat.lt_of_le_of_lt hj hl))

/-- Accepting edge and further edges of a block command, before the last of its pace (R152, R153, R241). -/
theorem runSteps_block {s : State} {p : Pins} {ps : List Pins} {rest : List HostEvent} {i : Instr} {dir : Direction}
    {block : Block} (hi : ∀ u, acceptEdge i u = acceptedBlock dir block u) (hp : Presents p i)
    (hc : cmdReady i.op s = true) (hr : NoReset ps) (hh : s.host = .edge p :: edges ps ++ rest)
    (hl : ps.length < s.blockPace.last) :
    runSteps (ps.length + 1) s = .next (blockAfter dir block s ps.length rest) := by
  have hs : step s = .next (blockAfter dir block s 0 (edges ps ++ rest)) := by
    rw [step_accepts hh hp hc, hi]
    exact congrArg _ (if_neg (Nat.ne_zero_of_lt hl))
  rw [runSteps_succ hs, runSteps_edges (f := blockAfter dir block s) (n := ps.length) ?_ hr rest (by omega),
    Nat.zero_add]
  intro j q hst hj hq
  rw [step_edge_busy rfl hq rfl]
  exact congrArg _
    (quietEdge_blockRunOf dir block (s := atPaceEdge j (s.clock + 1 + j) hst s) (Nat.lt_of_le_of_lt hj hl))

/-- Settles O45: the flags are those of the state that the edges of the command reach, `keyAfter` or `blockAfter`. -/
theorem flagsWhileACommandRuns : Obligations.FlagsWhileACommandRuns := by
  intro s p ps rest i hp hc hr hh
  constructor
  · rintro key rfl hl
    exact ⟨_, runSteps_loadkey hp hc hr hh (Nat.lt_of_succ_lt_succ hl), rfl, rfl, rfl, rfl, rfl⟩
  · rintro block (rfl | rfl) hl
    · have hsv : s.sv = true := sv_of_blockReady hc (.inl rfl)
      exact ⟨_, runSteps_block (acceptEdge_encrypt block) hp hc hr hh (Nat.lt_of_succ_lt_succ hl), rfl, rfl, hsv, rfl,
        rfl, rfl⟩
    · have hsv : s.sv = true := sv_of_blockReady hc (.inr rfl)
      exact ⟨_, runSteps_block (acceptEdge_decrypt block) hp hc hr hh (Nat.lt_of_succ_lt_succ hl), rfl, rfl, hsv, rfl,
        rfl, rfl⟩

/-! ## The end of a command -/

theorem ksr_host (s : State) : (ksr s).host = s.host := by
  dsimp only [ksr]
  split <;> rfl

theorem btr_host (s : State) : (btr s).host = s.host := by
  dsimp only [btr]
  split <;> rfl

theorem microStep_host (s : State) : (microStep s).host = s.host := by
  unfold microStep
  split
  · rfl
  · split
    · exact ksr_host s
    · rfl
  · split
    · exact btr_host s
    · rfl
  · rfl

/-- An edge takes nothing from the host's list by itself. -/
theorem quietEdge_host (s : State) : (quietEdge s).host = s.host :=
  Function.Iterate.rec (fun t : State => t.host = s.host) (a := tick (passEdges 1 s)) rfl
    (fun t ht => (microStep_host t).trans ht) (microStepsDue (tick (passEdges 1 s)))

/-- A busy block goes on at every step that handles no reset, and whole commands wait (R202, R77). -/
theorem step_busy {s : State} (hb : s.busy = true) (hn : NoResetEvent s.host) :
    ∃ hst, hst ⊆ s.host ∧ step s = .next (quietEdge { s with host := hst }) := by
  rcases hh : s.host with _ | ⟨p | w, rest⟩
  · exact ⟨[], List.Subset.refl _, by rw [step_nil hh, ← hh]⟩
  · have hr : p.rst = false := hn p (by rw [hh]; exact List.mem_cons_self)
    exact ⟨rest, List.subset_cons_self _ _, step_edge_busy hh hr hb⟩
  · have hc : cmdReady (decode w).op s = false := cmdReady_busy hb
    refine ⟨.command w :: rest, List.Subset.refl _, ?_⟩
    rw [step_command hh, takePresented, if_neg (by simp [hc]), exec_waits hc, ← hh]

/-- The command in progress has `n` edges to go (R240). -/
def EdgesToGo (n : Nat) (s : State) : Prop :=
  s.ph = .ks ∧ s.age + n = s.keyPace.last ∨ s.ph = .bt ∧ s.age + n = s.blockPace.last

/-- A command in progress is busy (R27). -/
theorem busy_of_edgesToGo {n : Nat} {s : State} (h : Inv s) (hg : EdgesToGo n s) : s.busy = true := by
  rcases hg with ⟨hp, -⟩ | ⟨hp, -⟩
  · exact (inv_ks h hp).1
  · exact (inv_bt h hp).1

/-- A busy block has a command in progress, and at least its last edge is to come (R37, R241). -/
theorem edgesToGo_of_busy {s : State} (h : Inv s) (hb : s.busy = true) : ∃ n, EdgesToGo (n + 1) s := by
  rcases inv_phase h with hp | hp | hp
  · simp [(inv_idle h hp).1] at hb
  · obtain ⟨hl, -⟩ := h.pace.1 hp
    exact ⟨s.keyPace.last - s.age - 1, .inl ⟨hp, by omega⟩⟩
  · obtain ⟨hl, -⟩ := h.pace.2 hp
    exact ⟨s.blockPace.last - s.age - 1, .inr ⟨hp, by omega⟩⟩

/-- An edge of a command in progress is its last, or leaves it with one edge less to go (R123, R154, R241). -/
theorem quietEdge_edgesToGo {n : Nat} {s : State} (h : Inv s) (hg : EdgesToGo (n + 1) s) :
    n = 0 ∧ (quietEdge s).busy = false ∨ n ≠ 0 ∧ EdgesToGo n (quietEdge s) := by
  rcases hg with ⟨hp, hl⟩ | ⟨hp, hl⟩
  · rw [quietEdge_key h hp]
    split
    · next he => exact .inl ⟨by omega, rfl⟩
    · next he => exact .inr ⟨by omega, .inl ⟨rfl, (Nat.add_right_comm _ _ _).trans hl⟩⟩
  · obtain ⟨l, r, hq⟩ := quietEdge_block h hp
    rw [hq]
    split
    · next he => exact .inl ⟨by omega, rfl⟩
    · next he => exact .inr ⟨by omega, .inr ⟨rfl, (Nat.add_right_comm _ _ _).trans hl⟩⟩

/-- `n` steps from `s`, and no fewer, end with BUSY = 0. -/
def FirstIdleAfter (n : Nat) (s : State) : Prop :=
  ∃ t, runSteps n s = .next t ∧ t.busy = false ∧ ∀ m u, m < n → runSteps m s = .next u → u.busy = true

theorem firstIdleAfter_zero {s : State} (h : s.busy = false) : FirstIdleAfter 0 s :=
  ⟨s, rfl, h, fun _ _ hm => absurd hm (Nat.not_lt_zero _)⟩

/-- A step from a busy state comes before the end of the command. -/
theorem firstIdleAfter_succ {n : Nat} {s u : State} (hb : s.busy = true) (hs : step s = .next u)
    (hu : FirstIdleAfter n u) : FirstIdleAfter (n + 1) s := by
  obtain ⟨t, ht, hd, hbefore⟩ := hu
  refine ⟨t, (runSteps_succ hs).trans ht, hd, fun m v hm hv => ?_⟩
  cases m with
  | zero =>
    cases hv
    exact hb
  | succ m => exact hbefore m v (by omega) ((runSteps_succ hs).symm.trans hv)

/-- A command with edges to go is complete after as many steps with no reset, and not before (R240). -/
theorem firstIdleAfter_edgesToGo {n : Nat} {s : State} (h : Inv s) (hn : NoResetEvent s.host)
    (hg : EdgesToGo (n + 1) s) : FirstIdleAfter (n + 1) s := by
  induction n generalizing s with
  | zero =>
    have hb := busy_of_edgesToGo h hg
    obtain ⟨hst, -, hs⟩ := step_busy hb hn
    obtain ⟨-, hd⟩ | ⟨hne, -⟩ := quietEdge_edgesToGo (inv_outside h s.clock hst) hg
    · exact firstIdleAfter_succ hb hs (firstIdleAfter_zero hd)
    · exact absurd rfl hne
  | succ n ih =>
    have hb := busy_of_edgesToGo h hg
    obtain ⟨hst, hsub, hs⟩ := step_busy hb hn
    obtain ⟨hz, -⟩ | ⟨-, hg'⟩ := quietEdge_edgesToGo (inv_outside h s.clock hst) hg
    · exact absurd hz (Nat.succ_ne_zero n)
    · refine firstIdleAfter_succ hb hs (ih (stepKeepsInvariant _ _ h hs) ?_ hg')
      rw [quietEdge_host]
      exact fun p hp => hn p (hsub hp)

/-- Settles O51, by induction on the edges that the command still has to go. -/
theorem everyCommandEnds : Obligations.EveryCommandEnds := by
  intro s h hb hn
  obtain ⟨n, hg⟩ := edgesToGo_of_busy h hb
  obtain ⟨t, ht, hd, hbefore⟩ := firstIdleAfter_edgesToGo h hn hg
  refine ⟨n + 1, t, by omega, ?_, ht, hd, hbefore⟩
  simp only [paceLatency]
  exact hg.imp (fun ⟨hp, hl⟩ => ⟨hp, by omega⟩) fun ⟨hp, hl⟩ => ⟨hp, by omega⟩

end Sys2Proof.Machine
end

section
/-! Settles that no flag and no sequencer register depends on data, and that no register is seen before it is written
(spec/10_state.md R36, R37 item 6, R39; spec/41_block_transform.md R149). Both compare the runs of two machines, so both
are instances of one lemma (`Congruence.step_related`): a relation that every operation of a step keeps is kept by the step. -/

namespace Sys2Proof.Machine

/-! ## Steps of two machines side by side -/

/-- Two host events that do the same at the ports, up to the commands they present, which `S` relates. -/
inductive EventsAlike (S : Instr → Instr → Prop) : HostEvent → HostEvent → Prop where
  | edge {p q : Pins} (rst : p.rst = q.rst) (valid : p.cmdValid = q.cmdValid) (op : p.cmdOp = q.cmdOp)
      (command : S (decode (p.cmdOp ++ p.cmdData)) (decode (q.cmdOp ++ q.cmdData))) :
      EventsAlike S (.edge p) (.edge q)
  | command {w v : CommandWord} (command : S (decode w) (decode v)) : EventsAlike S (.command w) (.command v)

/-- A relation `R` on states that every operation of a step keeps, for hosts whose commands `S` relates. -/
structure Congruence (S : Instr → Instr → Prop) (R : State → State → Prop) : Prop where
  op : ∀ {i j}, S i j → i.op = j.op
  host : ∀ {s t}, R s t → List.Forall₂ (EventsAlike S) s.host t.host
  pop : ∀ {s t}, R s t → R (popHost s) (popHost t)
  ready : ∀ {s t} (op), R s t → cmdReady op s = cmdReady op t
  quiet : ∀ {s t}, R s t → R (quietEdge s) (quietEdge t)
  reset : ∀ {s t}, R s t → R (resetStep (passEdges 1 s)) (resetStep (passEdges 1 t))
  accept : ∀ {s t i j}, R s t → S i j → cmdReady i.op s = true →
    R (acceptEdge i (passEdges 1 s)) (acceptEdge j (passEdges 1 t))
  whole : ∀ {s t i j}, R s t → S i j → cmdReady i.op s = true →
    R (passEdges (latency i s) (transact i s)) (passEdges (latency j t) (transact j t))

namespace Congruence

variable {S : Instr → Instr → Prop} {R : State → State → Prop}

theorem clockEdge_related (h : Congruence S R) {s t : State} {p q : Pins} (hst : R s t)
    (he : EventsAlike S (.edge p) (.edge q)) : R (clockEdge p s) (clockEdge q t) := by
  obtain ⟨hr, hv, ho, hi⟩ := he
  have hc := h.ready p.cmdOp hst
  rcases clockEdge_cases p s with ⟨hpr, hs⟩ | ⟨hpr, hpv, hpc, hs⟩ | ⟨hpr, hn, hs⟩ <;> rw [hs]
  · rw [clockEdge_reset t (hr ▸ hpr)]
    exact h.reset hst
  · rw [clockEdge_accept (hr ▸ hpr) (hv ▸ hpv) (by rw [← ho, ← hc]; exact hpc)]
    refine h.accept hst hi ?_
    rw [decode_op, Sys2Proof.Laws.Fields.op_of_append]
    exact hpc
  · rw [clockEdge_quiet (hr ▸ hpr) (by rw [← hv, ← ho, ← hc]; exact hn)]
    exact h.quiet hst

theorem exec_related (h : Congruence S R) {s t : State} {i j : Instr} (hst : R s t) (hij : S i j) :
    OutcomesRelated R (exec i (takePresented i.op s)) (exec j (takePresented j.op t)) := by
  have hc := h.ready i.op hst
  rw [← h.op hij]
  cases hs : cmdReady i.op s with
  | true =>
    have hs' : cmdReady i.op (popHost s) = true := hs
    have ht' : cmdReady j.op (popHost t) = true := by rw [← h.op hij]; exact hc.symm.trans hs
    rw [takePresented, takePresented, if_pos hs, if_pos (hc.symm.trans hs), exec_accepted hs', exec_accepted ht']
    exact h.whole (h.pop hst) hij hs'
  | false =>
    have ht : cmdReady i.op t = false := hc.symm.trans hs
    rw [takePresented, takePresented, if_neg (by simp [hs]), if_neg (by simp [ht]), exec_waits hs,
      exec_waits (h.op hij ▸ ht)]
    exact h.quiet hst

theorem step_related (h : Congruence S R) {s t : State} (hst : R s t) : OutcomesRelated R (step s) (step t) := by
  have hh := h.host hst
  unfold step
  rcases hs : s.host with _ | ⟨e, es⟩ <;> rcases ht : t.host with _ | ⟨f, fs⟩ <;> rw [hs, ht] at hh
  · exact h.quiet hst
  · cases hh
  · cases hh
  · obtain ⟨he, -⟩ := List.forall₂_cons.1 hh
    cases he with
    | edge rst valid op command => exact h.clockEdge_related (h.pop hst) (.edge rst valid op command)
    | command command => exact h.exec_related hst command

end Congruence

/-- A relation that every micro-step keeps, and that fixes how many are due, is kept by the micro-steps that are due. -/
theorem advance_related {R : State → State → Prop} (hdue : ∀ {s t}, R s t → microStepsDue s = microStepsDue t)
    (hmicro : ∀ {s t}, R s t → R (microStep s) (microStep t)) {s t : State} (h : R s t) : R (advance s) (advance t) := by
  have hi : ∀ n, R (microStep^[n] s) (microStep^[n] t) := fun n => by
    induction n with
    | zero => exact h
    | succ n ih =>
      rw [Function.iterate_succ_apply', Function.iterate_succ_apply']
      exact hmicro ih
  rw [advance, advance, ← hdue h]
  exact hi _

/-- Two outcomes stay related under a weaker relation. -/
theorem OutcomesRelated.mono {R Q : State → State → Prop} (h : ∀ {s t}, R s t → Q s t) {a b : Result}
    (hab : OutcomesRelated R a b) : OutcomesRelated Q a b := by
  cases a <;> cases b
  case next.next => exact h hab
  all_goals exact hab

/-! ## The control of a machine goes its way without the data (R36, R149) -/

/-- An operation whose effect on the control is a function of the control keeps machines of the same control alike. -/
theorem sameControl_of_commutes {f g : State → State} (hf : ∀ s, controlOf (f s) = g (controlOf s)) {s t : State}
    (h : SameControl s t) : SameControl (f s) (f t) := by
  unfold SameControl
  rw [hf, hf, show controlOf s = controlOf t from h]

/-- What is read off the control is the same in machines of the same control. -/
theorem eq_of_sameControl {α : Type} {f : State → α} (hf : ∀ s, f s = f (controlOf s)) {s t : State}
    (h : SameControl s t) : f s = f t := by
  rw [hf s, hf t, show controlOf s = controlOf t from h]

/-- What KSr does to the control (R122, R123). -/
theorem controlOf_ksr (s : State) :
    controlOf (ksr s) = if s.rnd.toNat < 16 then setSequencer .ks (rndOf (s.rnd.toNat + 1)) (controlOf s)
      else setSequencer .idle 0 (flagsKeyDone (controlOf s)) := by
  dsimp only [ksr]
  split <;> rfl

/-- What BTR(i) does to the control (R153, R154). -/
theorem controlOf_btr (s : State) :
    controlOf (btr s) = if s.rnd.toNat < 15 then setSequencer .bt (rndOf (s.rnd.toNat + 1)) (controlOf s)
      else setSequencer .idle 0 (flagsBlockDone (controlOf s)) := by
  dsimp only [btr]
  split <;> rfl

/-- The free values of an edge without a rule depend on the clock only (log entry 7). -/
theorem sameControl_noRule {s t : State} (h : SameControl s t) : SameControl (noRule s) (noRule t) :=
  sameControl_of_commutes (g := fun c => { controlOf (noRule c) with host := c.host }) (fun _ => rfl) h

theorem sameControl_microStep {s t : State} (h : SameControl s t) : SameControl (microStep s) (microStep t) := by
  have hp : s.ph = t.ph := eq_of_sameControl (fun _ => rfl) h
  have hr : s.rnd = t.rnd := eq_of_sameControl (fun _ => rfl) h
  unfold microStep
  rw [← hp, ← hr]
  split
  · exact h
  · split
    · unfold SameControl
      rw [controlOf_ksr, controlOf_ksr, ← hr, show controlOf s = controlOf t from h]
    · exact sameControl_noRule h
  · split
    · unfold SameControl
      rw [controlOf_btr, controlOf_btr, ← hr, show controlOf s = controlOf t from h]
    · exact sameControl_noRule h
  · exact sameControl_noRule h

/-- How many micro-steps are due is read off the control. -/
theorem sameControl_microStepsDue {s t : State} (h : SameControl s t) : microStepsDue s = microStepsDue t :=
  eq_of_sameControl (fun _ => rfl) h

theorem sameControl_advance {s t : State} (h : SameControl s t) : SameControl (advance s) (advance t) :=
  advance_related sameControl_microStepsDue sameControl_microStep h

theorem sameControl_passEdges (n : Nat) {s t : State} (h : SameControl s t) :
    SameControl (passEdges n s) (passEdges n t) :=
  sameControl_of_commutes (g := passEdges n) (fun _ => rfl) h

theorem sameControl_quietEdge {s t : State} (h : SameControl s t) : SameControl (quietEdge s) (quietEdge t) :=
  sameControl_advance (sameControl_of_commutes (g := tick) (fun _ => rfl) (sameControl_passEdges 1 h))

/-- Two commands with the same operation code and any operands (R72). -/
inductive SameKind : Instr → Instr → Prop where
  | nop (x y : BitVec 64) : SameKind (.nop x) (.nop y)
  | loadkey (x y : KeyValue) : SameKind (.loadkey x) (.loadkey y)
  | encrypt (x y : Block) : SameKind (.encrypt x) (.encrypt y)
  | decrypt (x y : Block) : SameKind (.decrypt x) (.decrypt y)

theorem SameKind.op_eq {i j : Instr} (h : SameKind i j) : i.op = j.op := by
  cases h <;> rfl

/-- Decoding looks at the code only to tell the kind of command (R76). -/
theorem sameKind_decode {w v : CommandWord} (h : opField w = opField v) : SameKind (decode w) (decode v) := by
  unfold decode
  rw [← h]
  split <;> constructor

/-- What BTL does to the control, in either direction (R152). -/
theorem sameControl_btl (dir : Direction) (x y : Block) {s t : State} (h : SameControl s t) :
    SameControl (startPace (btl dir x s)) (startPace (btl dir y t)) :=
  congrArg (fun c => startPace (setSequencer .bt 0 (flagsBlockAccepted c))) h

theorem sameControl_acceptEdge {i j : Instr} (hij : SameKind i j) {s t : State} (h : SameControl s t) :
    SameControl (acceptEdge i s) (acceptEdge j t) := by
  cases hij with
  | nop => exact h
  | loadkey =>
    exact sameControl_advance (congrArg (fun c => startPace (setSequencer .ks 1 (flagsKeyAccepted c))) h)
  | encrypt x y => exact sameControl_advance (sameControl_btl .encrypt x y h)
  | decrypt x y => exact sameControl_advance (sameControl_btl .decrypt x y h)

theorem sameControl_transact {i j : Instr} (hij : SameKind i j) {s t : State} (h : SameControl s t) :
    SameControl (transact i s) (transact j t) := by
  cases hij with
  | nop => exact h
  | loadkey => exact congrArg (fun c => setSequencer .idle 0 (flagsKeyDone c)) h
  | encrypt | decrypt => exact congrArg (fun c => setSequencer .idle 0 (flagsBlockDone c)) h

/-- The latency depends on the kind of command only (R240). -/
theorem sameControl_latency {i j : Instr} (hij : SameKind i j) {s t : State} (h : SameControl s t) :
    latency i s = latency j t := by
  cases hij with
  | nop => rfl
  | loadkey => exact congrArg (fun c => paceLatency c.keyPace) h
  | encrypt | decrypt => exact congrArg (fun c => paceLatency c.blockPace) h

/-- Events with the same control present commands of the same kind. -/
theorem eventsAlike_of_control {e f : HostEvent} (h : e.control = f.control) : EventsAlike SameKind e f := by
  cases e <;> cases f
  case edge.edge p q =>
    obtain ⟨hr, hv, ho, -, -⟩ := Pins.mk.inj (HostEvent.edge.inj h)
    refine .edge hr hv ho (sameKind_decode ?_)
    rw [Sys2Proof.Laws.Fields.op_of_append, Sys2Proof.Laws.Fields.op_of_append, ho]
  case command.command w v =>
    have hwv := congrArg opField (HostEvent.command.inj h)
    rw [Sys2Proof.Laws.Fields.op_of_append, Sys2Proof.Laws.Fields.op_of_append] at hwv
    exact .command (sameKind_decode hwv)
  all_goals cases h

theorem sameControl_host {s t : State} (h : SameControl s t) : List.Forall₂ (EventsAlike SameKind) s.host t.host := by
  have hc : List.Forall₂ (· = ·) (s.host.map HostEvent.control) (t.host.map HostEvent.control) := by
    rw [List.forall₂_eq_eq_eq]
    exact congrArg State.host h
  rw [List.forall₂_map_left_iff, List.forall₂_map_right_iff] at hc
  exact hc.imp fun _ _ => eventsAlike_of_control

theorem sameControl_congruence : Congruence SameKind SameControl where
  op := SameKind.op_eq
  host := sameControl_host
  pop h := sameControl_of_commutes (g := popHost) (fun s => by simp [controlOf, popHost]) h
  ready _ h := eq_of_sameControl (fun _ => rfl) h
  quiet := sameControl_quietEdge
  reset h := sameControl_of_commutes (g := resetStep) (fun _ => rfl) (sameControl_passEdges 1 h)
  accept h hij _ := sameControl_acceptEdge hij (sameControl_passEdges 1 h)
  whole h hij _ := by
    rw [sameControl_latency hij h]
    exact sameControl_passEdges _ (sameControl_transact hij h)

/-- Settles O56: having the same control is a congruence of the step, so of every run. -/
theorem controlIsIndependentOfData : Obligations.ControlIsIndependentOfData := by
  intro n s t h
  exact runSteps_related (fun _ _ => sameControl_congruence.step_related) n h

end Sys2Proof.Machine
end

section
/-! Settles that no register is seen before it is written (spec/10_state.md R37 item 6, R39): agreeing on what is written is
a congruence of the step (`alike_congruence`), and it makes the output ports equal (`AgreeOnWritten.outputs_eq`). -/

namespace Sys2Proof.Machine

/-! ## The sequencer in each phase -/

theorem SequencerOk.of_ks {s : State} (h : SequencerOk s) (hp : s.ph = .ks) :
    s.busy = true ∧ s.sv = false ∧ 1 ≤ s.rnd.toNat ∧ s.rnd.toNat ≤ 16 := by
  rwa [SequencerOk, hp] at h

theorem SequencerOk.of_bt {s : State} (h : SequencerOk s) (hp : s.ph = .bt) :
    s.busy = true ∧ s.sv = true ∧ s.dv = false ∧ s.rnd.toNat ≤ 15 := by
  rwa [SequencerOk, hp] at h

/-- A sequencer in one of its three phases (R34). -/
theorem SequencerOk.phase {s : State} (h : SequencerOk s) : s.ph = .idle ∨ s.ph = .ks ∨ s.ph = .bt := by
  rcases Phase.cases_on s.ph with hp | hp | hp | hp
  · exact .inl hp
  · exact .inr (.inl hp)
  · exact .inr (.inr hp)
  · rw [SequencerOk, hp] at h
    exact h.elim

/-- Two machines that agree on what has been written, with sequencer and flags as R33 and R34 say. -/
structure Alike (s t : State) : Prop where
  agree : AgreeOnWritten s t
  sequencer : SequencerOk s

/-! ## Outputs -/

theorem AgreeOnWritten.cmdReady_eq {s t : State} (h : AgreeOnWritten s t) (op : OpCode) :
    cmdReady op s = cmdReady op t := by
  rw [cmdReady, cmdReady, h.busy, h.sv]

theorem AgreeOnWritten.skData_eq {s t : State} (h : AgreeOnWritten s t) (addr : BitVec 4) :
    skData addr s = skData addr t := by
  rw [skData, skData, ← h.sv, ← h.clock]
  split
  · next hv => rw [readK, readK, h.store hv]
  · rfl

theorem AgreeOnWritten.rspData_eq {s t : State} (h : AgreeOnWritten s t) : rspData s = rspData t := by
  rw [rspData, rspData, ← h.dv, ← h.clock]
  split
  · next hv => exact h.result hv
  · rfl

/-- The ports show only what has been written (R37 item 6). -/
theorem AgreeOnWritten.outputs_eq {s t : State} (h : AgreeOnWritten s t) (p : Pins) : outputs p s = outputs p t := by
  rw [outputs, outputs, h.cmdReady_eq, h.dv, h.rspData_eq, h.sv, h.busy, h.skData_eq]

/-! ## Micro-steps -/

theorem sequencerOk_idle {s : State} (hp : s.ph = .idle) (hb : s.busy = false) (hr : s.rnd = 0) : SequencerOk s := by
  rw [SequencerOk, hp]
  exact ⟨hb, hr⟩

theorem sequencerOk_ks {s : State} {n : Nat} (hp : s.ph = .ks) (hb : s.busy = true) (hv : s.sv = false)
    (hn : s.rnd = rndOf (n + 1)) (hl : n ≤ 15) : SequencerOk s := by
  have hr : (rndOf (n + 1)).toNat = n + 1 := rndOf_toNat (by omega)
  rw [SequencerOk, hp, hn, hr]
  exact ⟨hb, hv, by omega, by omega⟩

theorem sequencerOk_bt {s : State} {n : Nat} (hp : s.ph = .bt) (hb : s.busy = true) (hv : s.sv = true)
    (hd : s.dv = false) (hn : s.rnd = rndOf n) (hl : n ≤ 15) : SequencerOk s := by
  have hr : (rndOf n).toNat = n := rndOf_toNat (by omega)
  rw [SequencerOk, hp, hn, hr]
  exact ⟨hb, hv, hd, hl⟩

/-- The store after the write of schedule round r: word r - 1 is new (R122). -/
theorem ksRotateAndStore_k (r : Nat) (s : State) (i : StoreIndex) :
    (ksRotateAndStore r s).k[i] =
      if i = Fin.ofNat 16 (r - 1) then pc2Select (rotl28 s.c (shiftAmount r)) (rotl28 s.d (shiftAmount r))
      else s.k[i] :=
  readK_writeK { s with c := rotl28 s.c (shiftAmount r), d := rotl28 s.d (shiftAmount r) } _ i _

/-- After schedule round r the words of the rounds up to r agree, if those before did and C and D did (R122). -/
theorem ksRotateAndStore_agree {s t : State} {r : Nat} (h1 : 1 ≤ r) (h2 : r ≤ 16) (hc : s.c = t.c) (hd : s.d = t.d)
    (hk : ∀ i : StoreIndex, i.val + 1 < r → s.k[i] = t.k[i]) (i : StoreIndex) (hi : i.val < r) :
    (ksRotateAndStore r s).k[i] = (ksRotateAndStore r t).k[i] := by
  rw [ksRotateAndStore_k, ksRotateAndStore_k, hc, hd]
  split
  · rfl
  · next hne =>
    have hr : (Fin.ofNat 16 (r - 1)).val = r - 1 := Nat.mod_eq_of_lt (by omega)
    have hv : i.val ≠ r - 1 := fun he => hne (Fin.ext (he.trans hr.symm))
    exact hk i (by omega)

/-- Micro-step KSr (R122, R123). -/
theorem alike_ksr {s t : State} (h : Alike s t) (hp : s.ph = .ks) : Alike (ksr s) (ksr t) := by
  obtain ⟨ha, hs⟩ := h
  obtain ⟨hb, hv, h1, h2⟩ := hs.of_ks hp
  obtain ⟨hc, hd, hk⟩ := ha.keyRun hp
  have hk' := ksRotateAndStore_agree h1 h2 hc hd hk
  rcases Nat.lt_or_eq_of_le h2 with hl | hl
  · have hn : (rndOf (s.rnd.toNat + 1)).toNat = s.rnd.toNat + 1 := rndOf_toNat (by omega)
    rw [ksr_of_lt s hl, ksr_of_lt t (ha.rnd ▸ hl), ← ha.rnd]
    refine ⟨{ ha with
      age := fun _ => ha.age (by simp [hp])
      ph := rfl
      rnd := rfl
      store := fun hv' => absurd (hv.symm.trans hv') (by decide)
      keyRun := fun _ => ⟨congrArg (rotl28 · _) hc, congrArg (rotl28 · _) hd, fun i hi => hk' i ?_⟩
      blockRun := fun hp' => by cases hp' }, sequencerOk_ks (n := s.rnd.toNat) rfl hb hv rfl (by omega)⟩
    exact Nat.lt_of_succ_lt_succ (hi.trans_eq hn)
  · have hall : (ksRotateAndStore 16 s).k = (ksRotateAndStore 16 t).k := by
      rw [hl] at hk'
      exact store_ext fun i => hk' i i.isLt
    rw [ksr_last s hl, ksr_last t (ha.rnd ▸ hl)]
    exact ⟨{ ha with
      age := fun hp' => absurd rfl hp'
      sv := rfl
      busy := rfl
      ph := rfl
      rnd := rfl
      store := fun _ => hall
      keyRun := fun hp' => by cases hp'
      blockRun := fun hp' => by cases hp' }, sequencerOk_idle rfl rfl rfl⟩

/-- Micro-step BTR(i) (R153, R154). -/
theorem alike_btr {s t : State} (h : Alike s t) (hp : s.ph = .bt) : Alike (btr s) (btr t) := by
  obtain ⟨ha, hs⟩ := h
  obtain ⟨hb, hv, hd, h2⟩ := hs.of_bt hp
  obtain ⟨hL, hR, hdir⟩ := ha.blockRun hp
  have hk := ha.store hv
  rcases Nat.lt_or_eq_of_le h2 with hl | hl
  · rw [btr_of_lt s hl, btr_of_lt t (ha.rnd ▸ hl), ← ha.rnd, ← hL, ← hR, ← hdir, ← hk]
    exact ⟨{ ha with
      age := fun _ => ha.age (by simp [hp])
      ph := rfl
      rnd := rfl
      store := fun _ => rfl
      keyRun := fun hp' => by cases hp'
      blockRun := fun _ => ⟨rfl, rfl, rfl⟩ }, sequencerOk_bt rfl hb hv hd rfl hl⟩
  · rw [btr_last s hl, btr_last t (ha.rnd ▸ hl), ← hL, ← hR, ← hdir, ← hk]
    exact ⟨{ ha with
      age := fun hp' => absurd rfl hp'
      busy := rfl
      dv := rfl
      ph := rfl
      rnd := rfl
      store := fun _ => rfl
      keyRun := fun hp' => by cases hp'
      blockRun := fun hp' => by cases hp'
      result := fun _ => rfl }, sequencerOk_idle rfl rfl rfl⟩

theorem alike_microStep {s t : State} (h : Alike s t) : Alike (microStep s) (microStep t) := by
  have ht := h.agree.ph
  have hr := h.agree.rnd
  rcases h.sequencer.phase with hp | hp | hp
  · rw [microStep_idle hp, microStep_idle (ht ▸ hp)]
    exact h
  · obtain ⟨-, -, h1, h2⟩ := h.sequencer.of_ks hp
    rw [microStep_ks hp h1 h2, microStep_ks (ht ▸ hp) (hr ▸ h1) (hr ▸ h2)]
    exact alike_ksr h hp
  · obtain ⟨-, -, -, h2⟩ := h.sequencer.of_bt hp
    rw [microStep_bt hp h2, microStep_bt (ht ▸ hp) (hr ▸ h2)]
    exact alike_btr h hp

theorem alike_microStepsDue {s t : State} (h : Alike s t) : microStepsDue s = microStepsDue t := by
  obtain ⟨hkp, hbp⟩ := h.agree.implementation
  unfold microStepsDue
  rw [← h.agree.ph, ← h.agree.rnd, ← hkp, ← hbp]
  split
  · rfl
  · next hp => rw [h.agree.age (by simp [hp])]
  · next hp => rw [h.agree.age (by simp [hp])]
  · rfl

theorem alike_advance {s t : State} (h : Alike s t) : Alike (advance s) (advance t) :=
  advance_related alike_microStepsDue alike_microStep h

/-! ## Edges and commands -/

theorem alike_passEdges (n : Nat) {s t : State} (h : Alike s t) : Alike (passEdges n s) (passEdges n t) :=
  ⟨{ h.agree with clock := congrArg (· + n) h.agree.clock }, h.sequencer⟩

theorem alike_popHost {s t : State} (h : Alike s t) : Alike (popHost s) (popHost t) :=
  ⟨{ h.agree with host := congrArg List.tail h.agree.host }, h.sequencer⟩

theorem alike_tick {s t : State} (h : Alike s t) : Alike (tick s) (tick t) := by
  refine ⟨{ h.agree with age := fun hp => ?_ }, h.sequencer⟩
  rw [tick_age, tick_age, ← h.agree.ph, h.agree.age hp]

/-- Nothing is written after a reset, so machines of one implementation agree there on all that is (R39, R220). -/
theorem alike_resetStep {s t : State} (hi : SameImplementation s t) (hc : s.clock = t.clock) (hh : s.host = t.host) :
    Alike (resetStep s) (resetStep t) where
  agree := {
    implementation := hi
    age := fun hp => absurd rfl hp
    sv := rfl
    busy := rfl
    dv := rfl
    ph := rfl
    rnd := rfl
    clock := hc
    host := hh
    store := fun hv => by cases hv
    keyRun := fun hp => by cases hp
    blockRun := fun hp => by cases hp
    result := fun hv => by cases hv }
  sequencer := sequencerOk_idle rfl rfl rfl

/-- Micro-step KS0 writes C and D; no word of K is written yet (R121). -/
theorem alike_ks0 (key : KeyValue) {s t : State} (h : Alike s t) :
    Alike (startPace (ks0 key s)) (startPace (ks0 key t)) where
  agree := { h.agree with
    age := fun _ => rfl
    sv := rfl
    busy := rfl
    ph := rfl
    rnd := rfl
    store := fun hv => by cases hv
    keyRun := fun _ => ⟨rfl, rfl, fun i hi => absurd (Nat.lt_of_succ_lt_succ hi) (Nat.not_lt_zero _)⟩
    blockRun := fun hp => by cases hp }
  sequencer := sequencerOk_ks (n := 0) rfl rfl rfl rfl (by omega)

/-- Micro-step BTL writes L, R and DIR, and is performed with SV = 1 only (R150 to R152). -/
theorem alike_btl (dir : Direction) (block : Block) {s t : State} (h : Alike s t) (hv : s.sv = true) :
    Alike (startPace (btl dir block s)) (startPace (btl dir block t)) where
  agree := { h.agree with
    age := fun _ => rfl
    busy := rfl
    dv := rfl
    ph := rfl
    rnd := rfl
    keyRun := fun hp => by cases hp
    blockRun := fun _ => ⟨rfl, rfl, rfl⟩
    result := fun hd => by cases hd }
  sequencer := sequencerOk_bt (n := 0) rfl rfl hv rfl rfl (by omega)

theorem alike_acceptEdge (i : Instr) {s t : State} (h : Alike s t) (hc : cmdReady i.op s = true) :
    Alike (acceptEdge i s) (acceptEdge i t) := by
  cases i with
  | nop => exact h
  | loadkey key => exact alike_advance (alike_ks0 key h)
  | encrypt block => exact alike_advance (alike_btl .encrypt block h (sv_of_blockReady hc (.inl rfl)))
  | decrypt block => exact alike_advance (alike_btl .decrypt block h (sv_of_blockReady hc (.inr rfl)))

/-- A whole LOADKEY writes all of K (R120). -/
theorem alike_loadKey (key : KeyValue) {s t : State} (h : Alike s t) : Alike (loadKey key s) (loadKey key t) where
  agree := { h.agree with
    age := fun hp => absurd rfl hp
    sv := rfl
    busy := rfl
    ph := rfl
    rnd := rfl
    store := fun _ => rfl
    keyRun := fun hp => by cases hp
    blockRun := fun hp => by cases hp }
  sequencer := sequencerOk_idle rfl rfl rfl

/-- A whole block command computes its result from K, which is written when SV = 1 (R150, R151). -/
theorem alike_runBlock (dir : Direction) (block : Block) {s t : State} (h : Alike s t) (hv : s.sv = true) :
    Alike (runBlock dir block s) (runBlock dir block t) where
  agree := { h.agree with
    age := fun hp => absurd rfl hp
    busy := rfl
    dv := rfl
    ph := rfl
    rnd := rfl
    keyRun := fun hp => by cases hp
    blockRun := fun hp => by cases hp
    result := fun _ => congrArg (transform · block dir) (h.agree.store hv) }
  sequencer := sequencerOk_idle rfl rfl rfl

theorem alike_transact (i : Instr) {s t : State} (h : Alike s t) (hc : cmdReady i.op s = true) :
    Alike (transact i s) (transact i t) := by
  cases i with
  | nop => exact h
  | loadkey key => exact alike_loadKey key h
  | encrypt block => exact alike_runBlock .encrypt block h (sv_of_blockReady hc (.inl rfl))
  | decrypt block => exact alike_runBlock .decrypt block h (sv_of_blockReady hc (.inr rfl))

theorem latency_of_sameImplementation (i : Instr) {s t : State} (h : SameImplementation s t) :
    latency i s = latency i t := by
  obtain ⟨hk, hb⟩ := h
  cases i with
  | nop => rfl
  | loadkey => exact congrArg paceLatency hk
  | encrypt | decrypt => exact congrArg paceLatency hb

/-- An event is like itself. -/
theorem eventsAlike_refl (e : HostEvent) : EventsAlike (· = ·) e e := by
  cases e with
  | edge p => exact .edge rfl rfl rfl rfl
  | command w => exact .command rfl

theorem alike_congruence : Congruence (· = ·) Alike where
  op h := congrArg Instr.op h
  host h := h.agree.host ▸ List.forall₂_same.2 fun e _ => eventsAlike_refl e
  pop := alike_popHost
  ready op h := h.agree.cmdReady_eq op
  quiet h := alike_advance (alike_tick (alike_passEdges 1 h))
  reset h := alike_resetStep h.agree.implementation (congrArg (· + 1) h.agree.clock) h.agree.host
  accept h hij hc := hij ▸ alike_acceptEdge _ (alike_passEdges 1 h) hc
  whole h hij hc := by
    rw [← hij, ← latency_of_sameImplementation _ h.agree.implementation]
    exact alike_passEdges _ (alike_transact _ h hc)

/-- Settles O57: agreeing on what is written is a congruence of the step, and the ports show nothing else. -/
theorem unwrittenRegistersAreNeverSeen : Obligations.UnwrittenRegistersAreNeverSeen := by
  refine ⟨fun s t ha hs => ?_, fun n s t hi hc hh => ?_⟩
  · exact (alike_congruence.step_related ⟨ha, hs⟩).mono fun h => ⟨h.agree, h.sequencer, h.agree.outputs_eq⟩
  · have hrun := runSteps_related (fun _ _ => alike_congruence.step_related) n (alike_resetStep hi hc hh)
    exact hrun.mono fun h => ⟨h.agree, h.agree.outputs_eq⟩

end Sys2Proof.Machine
end

section
/-! Settles what the subkey read port shows while SV = 1 (spec/20_memory.md R52, R55). The port reads the store, and item 1
of R37 says what the store holds. -/

namespace Sys2Proof.Machine

/-- R52: while SV = 1 the port reads the store, whatever the clock and the phase. -/
theorem skData_of_sv {s : State} (hv : s.sv = true) (addr : BitVec 4) : skData addr s = readK s (storeIndex addr) :=
  if_pos hv

/-- A valid schedule, read word by word (R37 item 1, R51). -/
theorem readK_of_scheduleOk {s : State} (h : ScheduleOk s) (hv : s.sv = true) (i : StoreIndex) :
    readK s i = (schedule s.key)[i] :=
  congrArg (·[i]) (h hv)

/-- Settles O58: `Inv` gives item 1 of R37 in every phase. -/
theorem subkeyPortShowsTheSchedule : Obligations.SubkeyPortShowsTheSchedule := by
  intro s p hi hv
  have port_shows : (outputs p s).skData = (schedule s.key)[storeIndex p.skAddr] :=
    calc (outputs p s).skData
      _ = readK s (storeIndex p.skAddr) := skData_of_sv hv p.skAddr
      _ = (schedule s.key)[storeIndex p.skAddr] := readK_of_scheduleOk hi.schedule hv _
  exact ⟨port_shows, rfl⟩

end Sys2Proof.Machine
end

section
/-! Settles the encoding of commands (spec/30_encoding.md R70, R72, R75, R76). A command and its word carry the same two
fields, and a word is its two fields put together; the rest follows. -/

namespace Sys2Proof.Machine

/-! ## Commands and words by their fields -/

/-- The operand of a decoded command (R70, R76); `decode_op` says the same of its code. -/
theorem decode_data (w : CommandWord) : (decode w).data = dataField w := by
  unfold decode
  split <;> rfl

/-- A word is its two fields put together (R70). -/
theorem opField_append_dataField (w : CommandWord) : opField w ++ dataField w = w :=
  BitVec.extractLsb'_append_extractLsb'

/-- Decoding undoes encoding (R72). -/
@[simp] theorem decode_encode (i : Instr) : decode (encode i) = i := decode_op_append_data i

/-- Encoding undoes decoding: no bit of a word is dropped (R70, R75; log entry 12). -/
@[simp] theorem encode_decode (w : CommandWord) : encode (decode w) = w := by
  rw [encode, decode_op, decode_data, opField_append_dataField]

/-! ## Raw numbers (log entry 9) -/

/-- The command words are the numbers of 66 bits (R76). -/
theorem isCommandWord_iff {n : Nat} : isCommandWord n = true ↔ n < 2 ^ 66 := decide_eq_true_iff

/-- A number below 2^66 is a command word (R76). -/
theorem decodeRaw_of_lt {n : Nat} (h : n < 2 ^ 66) : decodeRaw n = .ok (decode (BitVec.ofNat 66 n)) := by
  rw [decodeRaw, if_pos (isCommandWord_iff.2 h)]

/-- A number with a bit above bit 65 is none (R76). -/
theorem decodeRaw_of_le {n : Nat} (h : 2 ^ 66 ≤ n) : decodeRaw n = .error .widerThanCommandPort := by
  rw [decodeRaw, if_neg (mt isCommandWord_iff.1 (Nat.not_lt.2 h))]

/-- The number of a command's word is decoded to that command (R70, R72). -/
theorem decodeRaw_encode (i : Instr) : decodeRaw (encode i).toNat = .ok i := by
  rw [decodeRaw_of_lt (encode i).isLt, BitVec.ofNat_toNat, BitVec.setWidth_eq, decode_encode]

/-- The 72 bits of a table word hold the whole command word. -/
theorem toNat_encode_mod (i : Instr) : (encode i).toNat % 2 ^ 72 = (encode i).toNat :=
  Nat.mod_eq_of_lt ((encode i).isLt.trans (by decide))

/-- The table word of a command is decoded to that command. -/
theorem decodeTableWord_encode (i : Instr) : decodeTableWord 72 (encode i).toNat = some i := by
  rw [decodeTableWord, toNat_encode_mod, decodeRaw_encode]

/-- A table word with a bit above bit 65 is no command (R76). -/
theorem decodeTableWord_of_le {nbits w : Nat} (h : 2 ^ 66 ≤ w % 2 ^ nbits) : decodeTableWord nbits w = none := by
  rw [decodeTableWord, decodeRaw_of_le h]

/-! ## The statements -/

/-- Settles O1, by `decode_encode`: the code and the operand of a command are the fields of its word. -/
theorem decodeAfterEncode : Obligations.DecodeAfterEncode := fun i => ⟨decode_encode i, decodeRaw_encode i⟩

/-- Settles O2: `decode` and `encode` are inverse to each other, so no other command has the word. -/
theorem encodeAfterDecode : Obligations.EncodeAfterDecode := by
  intro w
  refine ⟨encode_decode w, fun i hi => ?_⟩
  rw [← hi, decode_encode]

/-- Settles O3. -/
theorem decodeReadsOpFieldOnly : Obligations.DecodeReadsOpFieldOnly := by
  refine ⟨fun w => ⟨decode_op w, decode_data w⟩, fun w v h => ?_, fun n => decodeRaw_of_lt, fun n => decodeRaw_of_le⟩
  rw [decode_op, decode_op, h]

/-- Settles O4: each of the first four numbers is the number of its command's word. -/
theorem knownCommandWordsDecode : Obligations.KnownCommandWordsDecode :=
  ⟨decodeTableWord_encode (.nop 0), decodeTableWord_encode (.loadkey 0x133457799BBCDFF1),
    decodeTableWord_encode (.encrypt 0x0123456789ABCDEF), decodeTableWord_encode (.decrypt 0x85E813540F0AB405),
    decodeTableWord_of_le (by decide)⟩

end Sys2Proof.Machine
end

section
/-! Settles how a presented command is taken and run (spec/30_encoding.md R77, R78): TRYKEY, the acceptance rule at one
edge, and the step that finds a command word presented. -/

namespace Sys2Proof.Machine

/-! ## TRYKEY -/

/-- A command of a program that is ready runs whole, and the rest of the program follows it (R77). -/
theorem runCommands_cons_of_ready {i : Instr} {s : State} (hc : cmdReady i.op s = true) (seen : List Subkey)
    (rest : List Instr) :
    runCommands seen (i :: rest) s = runCommands seen rest (passEdges (latency i s) (transact i s)) := by
  rw [runCommands, if_pos hc, exec_accepted hc]

/-- `s` after a whole LOADKEY (R120). -/
def keyLoaded (key : KeyValue) (s : State) : State :=
  passEdges (latency (.loadkey key) s) (loadKey key s)

/-- `s` after the commands of TRYKEY: a whole LOADKEY, then a whole DECRYPT (R77). -/
def keyTried (key : KeyValue) (block : Block) (s : State) : State :=
  passEdges (latency (.decrypt block) (keyLoaded key s)) (runBlock .decrypt block (keyLoaded key s))

/-- LOADKEY makes the DECRYPT after it ready, whatever SV was (R77, R78). -/
theorem runLine_tryKey (key : KeyValue) (block : Block) (seen : List Subkey) {s : State} (hb : s.busy = false) :
    runLine (.tryKey key block) seen s = .ended (keyTried key block s) seen := by
  have key_ready : cmdReady (Instr.loadkey key).op s = true :=
    (cmdReady_iff _ _).2 ⟨hb, .inl (show (0b01 : OpCode).getLsbD 1 = false by decide)⟩
  have block_ready : cmdReady (Instr.decrypt block).op (keyLoaded key s) = true :=
    (cmdReady_iff _ _).2 ⟨rfl, .inr rfl⟩
  calc runLine (.tryKey key block) seen s
      = runCommands seen [.loadkey key, .decrypt block] s := rfl
    _ = runCommands seen [.decrypt block] (keyLoaded key s) := runCommands_cons_of_ready key_ready _ _
    _ = runCommands seen [] (keyTried key block s) := runCommands_cons_of_ready block_ready _ _
    _ = .ended (keyTried key block s) seen := rfl

/-- Settles O33: the state that `runLine_tryKey` names, register by register (`loadKey_eq`, `runBlock_eq`). -/
theorem tryKeyDecryptsUnderTheNewKey : Obligations.TryKeyDecryptsUnderTheNewKey := by
  intro key block seen s hb
  exact ⟨keyTried key block s, runLine_tryKey key block seen hb, rfl, rfl, rfl, rfl, rfl, rfl⟩

/-! ## The acceptance rule -/

/-- With `cmd_valid` and no reset the ports present the command that their code and operand make (R70, R78). -/
theorem presents_decode {p : Pins} (hr : p.rst = false) (hv : p.cmdValid = true) :
    Presents p (decode (p.cmdOp ++ p.cmdData)) := by
  refine ⟨hr, hv, ?_, ?_⟩
  · rw [decode_op, Sys2Proof.Laws.Fields.op_of_append]
  · rw [decode_data, Sys2Proof.Laws.Fields.data_of_append]

/-- The step at an edge that accepts what the ports present (R78). -/
theorem step_edge_ready {s : State} {p : Pins} {rest : List HostEvent} (hh : s.host = .edge p :: rest)
    (hr : p.rst = false) (hv : p.cmdValid = true) (hc : cmdReady p.cmdOp s = true) :
    step s = .next (acceptEdge (decode (p.cmdOp ++ p.cmdData)) { s with host := rest, clock := s.clock + 1 }) := by
  obtain ⟨-, -, op_presented, -⟩ := presents_decode hr hv
  exact step_accepts hh (presents_decode hr hv) (op_presented ▸ hc)

/-- The step at an edge with no reset that accepts nothing (R78). -/
theorem step_edge_quiet {s : State} {p : Pins} {rest : List HostEvent} (hh : s.host = .edge p :: rest)
    (hr : p.rst = false) (hn : ¬(p.cmdValid = true ∧ cmdReady p.cmdOp s = true)) :
    step s = .next (quietEdge { s with host := rest }) := by
  rw [step_edge hh, clockEdge_quiet (s := { s with host := rest }) hr hn]

/-- Code 00 is NOP (R72). -/
theorem decode_nop_append (data : BitVec 64) : decode ((0b00 : OpCode) ++ data) = .nop data :=
  decode_encode (.nop data)

/-- An idle block stays as it is at an edge that accepts a NOP or nothing (R35, R155). -/
theorem step_edge_idle {s : State} {p : Pins} {rest : List HostEvent} (hh : s.host = .edge p :: rest)
    (hr : p.rst = false) (hp : s.ph = .idle)
    (ho : p.cmdOp = 0b00 ∨ ¬(p.cmdValid = true ∧ cmdReady p.cmdOp s = true)) :
    step s = .next { s with host := rest, clock := s.clock + 1 } := by
  by_cases accepted : p.cmdValid = true ∧ cmdReady p.cmdOp s = true
  · have is_nop : p.cmdOp = 0b00 := ho.resolve_right (not_not_intro accepted)
    rw [step_edge_ready hh hr accepted.1 accepted.2, is_nop, decode_nop_append, acceptEdge_nop]
  · rw [step_edge_quiet hh hr accepted, quietEdge_idle (s := { s with host := rest }) hp]
    rfl

/-- An idle block stays as it is when the host does nothing (R35). -/
theorem step_nil_idle {s : State} (hh : s.host = []) (hp : s.ph = .idle) :
    step s = .next { s with clock := s.clock + 1 } := by
  rw [step_nil hh, quietEdge_idle hp]
  rfl

/-- Settles O36: an edge with no reset accepts a command or does not; what an idle block does follows. -/
theorem acceptanceRule : Obligations.AcceptanceRule :=
  ⟨cmdReady_iff,
    fun _ _ _ hh hr => ⟨fun ⟨hv, hc⟩ => step_edge_ready hh hr hv hc, step_edge_quiet hh hr⟩,
    fun _ => step_nil, fun _ => quietEdge_idle, fun _ _ _ => step_edge_idle, fun _ => step_nil_idle⟩

/-! ## A command word that is presented -/

/-- What the host's list is once the event at its front has been presented (R77, R203). -/
theorem takePresented_of_host {s : State} {e : HostEvent} {rest : List HostEvent} (op : OpCode)
    (hh : s.host = e :: rest) :
    takePresented op s = if cmdReady op s then { s with host := rest } else s := by
  rw [takePresented, popHost, hh, List.tail_cons]

/-- The step that finds a command word presented (R77, R78). -/
theorem step_presented {s : State} {w : CommandWord} {rest : List HostEvent} (hh : s.host = .command w :: rest) :
    step s = exec (decode w) (if cmdReady (decode w).op s then { s with host := rest } else s) := by
  rw [step_command hh, takePresented_of_host _ hh]

/-- The table word of a command is presented as its command word (log entries 9, 10). -/
theorem withFetchWord_encode (s : State) (i : Instr) :
    s.withFetchWord 72 (encode i).toNat = { s with host := .command (encode i) :: s.host } := by
  rw [State.withFetchWord, toNat_encode_mod, presentWord, if_pos (isCommandWord_iff.2 (encode i).isLt),
    BitVec.ofNat_toNat, BitVec.setWidth_eq]

/-- Settles O35. -/
theorem stepRunsDecodedCommand : Obligations.StepRunsDecodedCommand := by
  refine ⟨fun _ _ _ => step_presented, fun s i => ?_⟩
  rw [withFetchWord_encode, step_presented rfl, decode_encode]
  rfl

end Sys2Proof.Machine
end

section
/-! Settles the key schedule as a function (spec/40_key_scheduler.md R104 to R112). Its halves are rotations of C0 and D0
(`keyHalves_eq_rotateLeft`), so every subkey bit is a copy of one key bit (`pos_roundSubkey`), and none of these stands
where PC1 takes nothing. -/

namespace Sys2Proof.Machine

/-! ## Rounds -/

/-- Settles O7: a round is `rotl28` of each half, read by positions (`pos_rotl28`). -/
theorem scheduleRoundRotatesEachHalf : Obligations.ScheduleRoundRotatesEachHalf := by
  intro key r p h1 h16 hp1 hp28
  obtain ⟨r, rfl⟩ := Nat.exists_eq_add_of_le' h1
  have one_or_two := shiftAmount_one_or_two h1 h16
  rw [keyHalves_succ, Nat.add_sub_cancel]
  exact ⟨pos_rotl28 _ one_or_two hp1 hp28, pos_rotl28 _ one_or_two hp1 hp28⟩

/-- Settles O8. -/
theorem subkeyStandsAtRoundLessOne : Obligations.SubkeyStandsAtRoundLessOne := by
  intro key r i h1 _ hi
  have index_succ : i.val + 1 = r := by omega
  rw [Fin.getElem_fin, schedule_getElem, index_succ]
  rfl

/-! ## The closed form (R111) -/

/-- R11's rotation is the library's, for the amounts that the schedule uses. -/
theorem rotl28_eq_rotateLeft (x : HalfKey) {s : Nat} (hs : s = 1 ∨ s = 2) : rotl28 x s = x.rotateLeft s := by
  rcases hs with rfl | rfl <;> rfl

/-- Rotation by 0 is the identity (R111). -/
theorem rotateLeft_zero (x : HalfKey) : x.rotateLeft 0 = x := by
  refine eq_of_pos fun p h1 h2 => ?_
  rw [pos_rotateLeft x (by decide) h1 h2, show (p - 1 + 0) % 28 + 1 = p by omega]

/-- The composition law of rotations (R111). -/
theorem rotl28_rotateLeft (x : HalfKey) {a s : Nat} (ha : a < 28) (hs : s = 1 ∨ s = 2) :
    rotl28 (x.rotateLeft a) s = x.rotateLeft ((a + s) % 28) := by
  refine eq_of_pos fun p h1 h2 => ?_
  have same_position : (p - 1 + s) % 28 + 1 - 1 + a = (p - 1 + s) % 28 + a := by omega
  rw [pos_rotl28 _ hs h1 h2, pos_rotateLeft _ ha (by omega) (by omega), pos_rotateLeft _ (by omega) h1 h2,
    same_position]
  congr 2
  omega

/-- CUM[r] adds up SHIFTS (R104). -/
theorem cumShift_succ {r : Nat} (h : r < 16) : cumShift (r + 1) = cumShift r + shiftAmount (r + 1) := by
  interval_cases r <;> rfl

/-- The halves after round r are C0 and D0, rotated by CUM[r] (R111). -/
theorem keyHalves_eq_rotateLeft (key : KeyValue) {r : Nat} (h : r ≤ 16) :
    keyHalves key r = ((c0 key).rotateLeft (cumShift r % 28), (d0 key).rotateLeft (cumShift r % 28)) := by
  induction r with
  | zero =>
    have no_shift : cumShift 0 % 28 = 0 := rfl
    rw [no_shift, rotateLeft_zero, rotateLeft_zero]
    rfl
  | succ r ih =>
    have one_or_two := shiftAmount_one_or_two (r := r + 1) (by omega) h
    have in_width : cumShift r % 28 < 28 := Nat.mod_lt _ (by decide)
    rw [keyHalves_succ, ih (by omega), rotl28_rotateLeft _ in_width one_or_two, rotl28_rotateLeft _ in_width one_or_two,
      cumShift_succ (by omega), Nat.mod_add_mod]

/-- CUM[16] = 28: the sixteen rounds bring the halves back to C0 and D0 (R111). -/
theorem keyHalves_sixteen (key : KeyValue) : keyHalves key 16 = (c0 key, d0 key) := by
  have whole_turn : cumShift 16 % 28 = 0 := rfl
  rw [keyHalves_eq_rotateLeft key le_rfl, whole_turn, rotateLeft_zero, rotateLeft_zero]

/-- Settles O9, by induction on the rounds with the composition law (`keyHalves_eq_rotateLeft`). -/
theorem halvesAreCumulativeRotations : Obligations.HalvesAreCumulativeRotations := by
  refine ⟨fun key r => keyHalves_eq_rotateLeft key, keyHalves_sixteen, by decide, fun x a b ha hb => ?_⟩
  rw [rotl28_eq_rotateLeft x ha, rotl28_rotateLeft x (by omega) hb]

/-! ## The halves of a subkey (R109) -/

/-- The upper half of a subkey is taken from C. -/
theorem pc2_take_range : ∀ p ∈ pc2.take 24, 1 ≤ p ∧ p ≤ 28 := by decide

/-- The lower half of a subkey is taken from D. -/
theorem pc2_drop_range : ∀ p ∈ pc2.drop 24, 29 ≤ p ∧ p ≤ 56 := by decide

theorem pc2_getD_of_le {q : Nat} (h1 : 1 ≤ q) (h2 : q ≤ 24) : pc2.getD (q - 1) 0 ≤ 28 := by
  have in_pc2 : q - 1 < pc2.length := by rw [pc2_length]; omega
  rw [List.getD_eq_getElem _ _ in_pc2]
  exact (pc2_take_range _ (List.mem_take_iff_getElem.2 ⟨q - 1, by omega, rfl⟩)).2

theorem pc2_getD_of_ge {q : Nat} (h1 : 25 ≤ q) (h2 : q ≤ 48) : 29 ≤ pc2.getD (q - 1) 0 := by
  have in_pc2 : q - 1 < pc2.length := by rw [pc2_length]; omega
  rw [List.getD_eq_getElem _ _ in_pc2]
  refine (pc2_drop_range _ (List.mem_drop_iff_getElem.2 ⟨q - 25, by omega, ?_⟩)).1
  congr 1
  omega

/-- Settles O11: which half a subkey bit comes from is which half of PC2 its entry stands in. -/
theorem subkeyHalvesComeFromCAndD : Obligations.SubkeyHalvesComeFromCAndD := by
  refine ⟨fun c c' d d' q => ⟨fun h1 h2 => ?_, fun h1 h2 => ?_⟩, pc2_take_range, pc2_drop_range, by decide, ?_⟩
  · have from_c := pc2_getD_of_le h1 h2
    rw [pos_pc2Select _ _ h1 (by omega), pos_pc2Select _ _ h1 (by omega), if_pos from_c, if_pos from_c]
  · have from_d : ¬ pc2.getD (q - 1) 0 ≤ 28 := Nat.not_le.2 (pc2_getD_of_ge h1 h2)
    rw [pos_pc2Select _ _ (by omega) h2, pos_pc2Select _ _ (by omega) h2, if_neg from_d, if_neg from_d]
  · have left_out : ∀ p < 57, 1 ≤ p → (p ∉ pc2 ↔ p ∈ [9, 18, 22, 25, 35, 38, 43, 54]) := by decide
    exact fun p h1 h2 => left_out p (by omega) h1

/-! ## The key bits that PC1 leaves out (R106) -/

/-- PC1 names positions of the key that are no multiple of 8 (R106). -/
theorem pc1_used : ∀ p ∈ pc1Left ++ pc1Right, (1 ≤ p ∧ p ≤ 64) ∧ p % 8 ≠ 0 := by decide

/-- Every position that PC1 names is a used key bit (R73, R106). -/
theorem pos_usedKeyBits : ∀ p ∈ pc1Left ++ pc1Right, pos usedKeyBits p = true := by decide

/-- A selection sees only the positions that its table names (R9). -/
theorem sel_congr {m n : Nat} {table : List Nat} {a b : BitVec n} (hm : table.length = m)
    (h : ∀ p ∈ table, pos a p = pos b p) : sel m table a = sel m table b := by
  refine eq_of_pos fun q h1 h2 => ?_
  have in_table : q - 1 < table.length := by omega
  rw [pos_sel _ hm h1 h2, pos_sel _ hm h1 h2, List.getD_eq_getElem _ _ in_table]
  exact h _ (List.getElem_mem in_table)

/-- A mask on the bits that PC1 leaves out changes no bit that it takes. -/
theorem pos_xor_ignored {mask : KeyValue} (hm : mask &&& usedKeyBits = 0) (key : KeyValue) {p : Nat}
    (h : p ∈ pc1Left ++ pc1Right) : pos (key ^^^ mask) p = pos key p := by
  have unmasked : pos mask p = false :=
    calc pos mask p
        = (pos mask p && pos usedKeyBits p) := by rw [pos_usedKeyBits p h, Bool.and_true]
      _ = pos (mask &&& usedKeyBits) p := BitVec.getLsbD_and.symm
      _ = false := by rw [hm]; exact pos_zero
  rw [pos_xor, unmasked, Bool.xor_false]

/-- The schedule reads the key through C0 and D0 only (R103). -/
theorem schedule_congr {a b : KeyValue} (hc : c0 a = c0 b) (hd : d0 a = d0 b) : schedule a = schedule b := by
  refine store_ext fun i => ?_
  have h : i.val + 1 ≤ 16 := i.isLt
  simp only [Fin.getElem_fin, schedule_getElem, roundSubkey_eq, keyHalves_eq_rotateLeft _ h, hc, hd]

theorem schedule_xor_ignored {mask : KeyValue} (hm : mask &&& usedKeyBits = 0) (key : KeyValue) :
    schedule (key ^^^ mask) = schedule key :=
  schedule_congr
    (sel_congr pc1Left_length fun _ h => pos_xor_ignored hm key (List.mem_append_left _ h))
    (sel_congr pc1Right_length fun _ h => pos_xor_ignored hm key (List.mem_append_right _ h))

/-- Settles O10: C0 and D0 see only the positions that PC1 names (`sel_congr`). -/
theorem ignoredKeyBitsChangeNothing : Obligations.IgnoredKeyBitsChangeNothing := by
  refine ⟨?_, rfl, fun key mask hm => ⟨schedule_xor_ignored hm key, fun block dir => ?_⟩⟩
  · have counts : ∀ p < 65, 1 ≤ p → (pc1Left ++ pc1Right).count p = if p % 8 = 0 then 0 else 1 := by decide
    exact fun p h1 h2 => counts p (by omega) h1
  · rw [schedule_xor_ignored hm key]

/-! ## Subkey bits are key bits (R112) -/

/-- The key position that bit q of the subkey of round r copies: PC2, then the rotation by CUM[r], then PC1
(R101, R102, R107, R111). -/
def keyPosition (r q : Nat) : Nat :=
  if pc2.getD (q - 1) 0 ≤ 28 then pc1Left.getD ((pc2.getD (q - 1) 0 - 1 + cumShift r) % 28) 0
  else pc1Right.getD ((pc2.getD (q - 1) 0 - 28 - 1 + cumShift r) % 28) 0

theorem keyPosition_mem (r q : Nat) : keyPosition r q ∈ pc1Left ++ pc1Right := by
  have in_width (n : Nat) : n % 28 < 28 := Nat.mod_lt n (by decide)
  rw [keyPosition]
  split
  · rw [List.getD_eq_getElem _ _ (in_width _)]
    exact List.mem_append_left _ (List.getElem_mem _)
  · rw [List.getD_eq_getElem _ _ (in_width _)]
    exact List.mem_append_right _ (List.getElem_mem _)

/-- A selection of 28 key bits, rotated, in positions of the key (R9, R111). -/
theorem pos_rotateLeft_sel {table : List Nat} (hm : table.length = 28) (key : KeyValue) (a : Nat) {p : Nat}
    (h1 : 1 ≤ p) (h2 : p ≤ 28) :
    pos ((sel 28 table key).rotateLeft (a % 28)) p = pos key (table.getD ((p - 1 + a) % 28) 0) := by
  rw [pos_rotateLeft _ (Nat.mod_lt _ (by decide)) h1 h2, pos_sel _ hm (by omega) (by omega), Nat.add_sub_cancel,
    Nat.add_mod_mod]

/-- Every subkey bit is a copy of a key bit (R112). -/
theorem pos_roundSubkey (key : KeyValue) {r q : Nat} (hr : r ≤ 16) (h1 : 1 ≤ q) (h2 : q ≤ 48) :
    pos (roundSubkey key r) q = pos key (keyPosition r q) := by
  obtain ⟨g1, g2⟩ := getD_in_range (i := q - 1) pc2_range (by rw [pc2_length]; omega)
  rw [roundSubkey_eq, keyHalves_eq_rotateLeft key hr, pos_pc2Select _ _ h1 h2, keyPosition]
  split
  · next from_c => exact pos_rotateLeft_sel pc1Left_length key _ g1 from_c
  · next from_d => exact pos_rotateLeft_sel pc1Right_length key _ (by omega) (by omega)

/-- The bits of a schedule's word i, as bits of the key. -/
theorem pos_schedule (key : KeyValue) (i : StoreIndex) {q : Nat} (h1 : 1 ≤ q) (h2 : q ≤ 48) :
    pos (schedule key)[i] q = pos key (keyPosition (i.val + 1) q) := by
  rw [Fin.getElem_fin, schedule_getElem]
  exact pos_roundSubkey key i.isLt h1 h2

/-- The table that the spec prints is the composition of its rules (R112). -/
theorem keyPos_eq_keyPosition :
    keyPos = (List.range 16).map fun n => (List.range 48).map fun q => keyPosition (n + 1) (q + 1) := by decide

theorem keyPos_getD (i : StoreIndex) {q : Nat} (h1 : 1 ≤ q) (h2 : q ≤ 48) :
    (keyPos.getD i.val []).getD (q - 1) 0 = keyPosition (i.val + 1) q := by
  have hq : q - 1 < 48 := by omega
  simp [keyPos_eq_keyPosition, hq, Nat.sub_add_cancel h1]

/-- Settles O12: KEYPOS is `keyPosition`, and PC1 names no multiple of 8. -/
theorem subkeyBitsAreKeyBits : Obligations.SubkeyBitsAreKeyBits := by
  intro key i q h1 h2
  rw [keyPos_getD i h1 h2]
  exact ⟨pos_schedule key i h1 h2, (pc1_used _ (keyPosition_mem _ _)).2⟩

theorem pos_allOnes {n p : Nat} (h1 : 1 ≤ p) (h2 : p ≤ n) : pos (BitVec.allOnes n) p = true := by
  rw [pos_eq_getLsbD, BitVec.getLsbD_allOnes]
  exact decide_eq_true (by omega)

/-- The schedule of the all-zero key (R112). -/
theorem schedule_zero (i : StoreIndex) : (schedule 0)[i] = 0 :=
  eq_of_pos fun _ h1 h2 => (pos_schedule 0 i h1 h2).trans (pos_zero.trans pos_zero.symm)

/-- The schedule of the all-one key (R112). -/
theorem schedule_allOnes (i : StoreIndex) : (schedule (BitVec.allOnes 64))[i] = BitVec.allOnes 48 := by
  refine eq_of_pos fun q h1 h2 => ?_
  obtain ⟨⟨g1, g2⟩, -⟩ := pc1_used _ (keyPosition_mem (i.val + 1) q)
  rw [pos_schedule _ i h1 h2, pos_allOnes g1 g2, pos_allOnes h1 h2]

/-- Settles O13: linearity from `roundSubkey_xor`; the two constant keys from the wiring. -/
theorem scheduleIsLinear : Obligations.ScheduleIsLinear := by
  refine ⟨fun a b i => ?_, schedule_zero, schedule_allOnes⟩
  simp only [Fin.getElem_fin, schedule_getElem]
  exact roundSubkey_xor a b i.isLt

end Sys2Proof.Machine
end

section
/-! Settles LOADKEY (spec/40_key_scheduler.md R120 to R123): the whole command, its micro-steps, and that its edges at any
pace reach what the whole command reaches. -/

namespace Sys2Proof.Machine

/-! ## The whole command -/

/-- LOADKEY is ready whenever BUSY = 0, whatever SV and DV are (R78, R120). -/
theorem cmdReady_loadkey (key : KeyValue) {s : State} (hb : s.busy = false) :
    cmdReady (Instr.loadkey key).op s = true := by
  have code_without_sv : (0b01 : OpCode).getLsbD 1 = false := by decide
  exact (cmdReady_iff _ _).2 ⟨hb, .inl code_without_sv⟩

/-- What a LOADKEY of a block that is not busy answers (R120). -/
theorem exec_loadkey (key : KeyValue) {s : State} (hb : s.busy = false) :
    exec (.loadkey key) s = .next (passEdges (paceLatency s.keyPace) (loadKey key s)) :=
  exec_accepted (cmdReady_loadkey key hb)

/-- Settles O28: C and D are back at C0 and D0 by `keyHalves_sixteen`. -/
theorem loadkeyCompletes : Obligations.LoadkeyCompletes := by
  intro key s hb
  rw [exec_loadkey key hb, loadKey_eq, keyHalves_sixteen]
  rfl

/-! ## Micro-steps -/

/-- How many micro-steps bring a LOADKEY with `n` rounds done to where its pace has it (R241). -/
theorem microStepsDue_ks {s : State} {n : Nat} (hp : s.ph = .ks) (hr : s.rnd.toNat = n + 1) (hn : n ≤ 15) :
    microStepsDue s = roundsBy s.keyPace s.age - n := by
  have legal : 1 ≤ s.rnd.toNat ∧ s.rnd.toNat ≤ 16 := by omega
  simp only [microStepsDue, hp]
  rw [if_pos legal, hr, Nat.add_sub_cancel]

/-- Settles O38: after KS0 no round is done, so all that the pace has done by edge 0 are due. -/
theorem loadkeyAcceptingEdge : Obligations.LoadkeyAcceptingEdge := by
  intro s p rest key hh hp hb
  have due := microStepsDue_ks (s := startPace (ks0 key { s with clock := s.clock + 1, host := rest })) (n := 0)
    rfl rfl (Nat.zero_le _)
  rw [step_accepts hh hp (cmdReady_loadkey key hb), acceptEdge, advance, due]
  rfl

/-- The index that schedule round i + 1 writes (R108, R122). -/
theorem ofNat_round_sub_one {r : Nat} {i : StoreIndex} (hr : r = i.val + 1) : Fin.ofNat 16 (r - 1) = i := by
  rw [hr, Nat.add_sub_cancel]
  exact Fin.ext (Nat.mod_eq_of_lt i.isLt)

/-- Micro-step KSr, r = 1..16, field by field (R122, R123). -/
theorem microStep_ks_eq {s : State} {i : StoreIndex} (hp : s.ph = .ks) (hr : s.rnd.toNat = i.val + 1) :
    microStep s =
      if s.rnd.toNat < 16 then { ksRotateAndStore s.rnd.toNat s with rnd := s.rnd + 1 }
      else { ksRotateAndStore s.rnd.toNat s with rnd := 0, ph := .idle, busy := false, sv := true } := by
  have hi := i.isLt
  rw [microStep_ks hp (by omega) (by omega)]
  split
  · next not_last =>
    have next_round : rndOf (s.rnd.toNat + 1) = s.rnd + 1 := by
      rw [rndOf, BitVec.ofNat_add, BitVec.ofNat_toNat, BitVec.setWidth_eq]
      rfl
    rw [ksr_of_lt s not_last, next_round, ← hp]
    rfl
  · next last =>
    have round_sixteen : s.rnd.toNat = 16 := by omega
    rw [ksr_last s round_sixteen, round_sixteen]

/-- Settles O39: the store write is `ofNat_round_sub_one`'s word, and what is due is `microStepsDue_ks`. -/
theorem scheduleMicroStep : Obligations.ScheduleMicroStep := by
  refine ⟨fun s c' d' i hp hr hc hd => ?_, fun s p rest i hh hrst hb hp hr => ?_⟩
  · rw [microStep_ks_eq hp hr, ksRotateAndStore, ofNat_round_sub_one hr, ← hc, ← hd]
    rfl
  · have due := microStepsDue_ks (s := tick (passEdges 1 { s with host := rest })) hp hr (Nat.le_of_lt_succ i.isLt)
    have ticked : tick (passEdges 1 { s with host := rest }) =
        { s with age := s.age + 1, clock := s.clock + 1, host := rest } :=
      tick_of_not_idle (s := passEdges 1 { s with host := rest }) (by simp [hp])
    rw [step_edge_busy hh hrst hb, quietEdge, advance, due, ticked]

/-! ## The edges of a whole LOADKEY -/

/-- The last edge of a LOADKEY in progress (R123, R241). -/
theorem quietEdge_keyRun_last (key : KeyValue) {s : State} (h : s.age + 1 = s.keyPace.last) :
    quietEdge (keyRun key s (roundsBy s.keyPace s.age)) = loadKey key (nextEdge s) := by
  have ticked : tick (passEdges 1 (keyRun key s (roundsBy s.keyPace s.age))) =
      keyRun key (nextEdge s) (roundsBy s.keyPace s.age) := rfl
  have advanced := advance_keyRun key (nextEdge s) (n := roundsBy s.keyPace s.age) (roundsBy_of_lt (by omega))
    (roundsBy_succ_ge _ _)
  rw [quietEdge, ticked]
  exact advanced.trans (if_pos h.ge)

/-- All edges of a LOADKEY, however the rounds are spread over them (R121 to R123, R241). -/
theorem runSteps_loadkey_all {s : State} {p : Pins} {ps : List Pins} {rest : List HostEvent} {key : KeyValue}
    (hp : Presents p (.loadkey key)) (hc : cmdReady (Instr.loadkey key).op s = true) (hr : NoReset ps)
    (hh : s.host = .edge p :: edges ps ++ rest) (hl : ps.length = s.keyPace.last) :
    runSteps (ps.length + 1) s =
      .next (loadKey key (atPaceEdge ps.length (s.clock + 1 + ps.length) rest s)) := by
  rcases List.eq_nil_or_concat ps with rfl | ⟨before, q, rfl⟩
  · have hs : step s = .next (loadKey key (atPaceEdge 0 (s.clock + 1) rest s)) := by
      rw [step_accepts hh hp hc, acceptEdge_loadkey]
      exact congrArg _ (if_pos hl.symm)
    rw [runSteps_succ hs]
    rfl
  · have hlen : before.length + 1 = s.keyPace.last := by simpa using hl
    have hbefore : s.host = .edge p :: edges before ++ (.edge q :: rest) := by simpa [edges] using hh
    have hr_before : NoReset before := fun a ha => hr a (by simp [ha])
    have hq : q.rst = false := hr q (by simp)
    have in_progress := runSteps_loadkey hp hc hr_before hbefore (by omega)
    have last_edge := quietEdge_keyRun_last key
      (s := atPaceEdge before.length (s.clock + 1 + before.length) rest s) hlen
    have hs : step (keyAfter key s before.length (.edge q :: rest)) = _ := step_edge_busy rfl hq rfl
    rw [List.concat_eq_append, List.length_append, List.length_singleton, runSteps_add in_progress, runSteps_succ hs]
    exact congrArg _ last_edge

/-- Settles O46, by `runSteps_loadkey_all` for the edges and `exec_loadkey` for the whole command. -/
theorem loadkeyLevelsAgree : Obligations.LoadkeyLevelsAgree := by
  intro s p ps rest key hb hp hr hl hh
  have by_edges := runSteps_loadkey_all hp (cmdReady_loadkey key hb) hr hh (Nat.succ.inj hl)
  rw [← hl]
  refine ⟨_, _, by_edges, exec_loadkey key hb, rfl, rfl, ?_⟩
  show s.clock + 1 + ps.length = s.clock + paceLatency s.keyPace
  omega

end Sys2Proof.Machine
end

section
/-! Settles the block transform as a function (spec/41_block_transform.md R142 to R148, R156, R157). Its sixteen rounds
are sixteen steps of the FIPS 46-3 recurrence with the last pair of halves swapped (`finalHalves_eq_fips`), and the
recurrence run from the swapped end with the subkeys in reverse order retraces itself (`fipsHalves_flip`). -/

namespace Sys2Proof.Machine

/-! ## IP and FP -/

/-- IP and FP are inverse to each other as tables (R147). -/
theorem ip_fp_tables_inverse : ∀ q < 65, 1 ≤ q →
    fp.getD (ip.getD (q - 1) 0 - 1) 0 = q ∧ ip.getD (fp.getD (q - 1) 0 - 1) 0 = q := by decide

/-- The outer selection undoes the inner one when the inner table, looked up at the entries of the outer, is the
identity (R9). -/
theorem sel_sel_of_inverse {n : Nat} {inner outer : List Nat} (h1 : inner.length = n) (h2 : outer.length = n)
    (hr : ∀ p ∈ outer, 1 ≤ p ∧ p ≤ n)
    (inverse : ∀ q, 1 ≤ q → q ≤ n → inner.getD (outer.getD (q - 1) 0 - 1) 0 = q) (b : BitVec n) :
    sel n outer (sel n inner b) = b := by
  refine eq_of_pos fun q hq1 hq2 => ?_
  obtain ⟨g1, g2⟩ := getD_in_range (i := q - 1) hr (by omega)
  rw [pos_sel _ h2 hq1 hq2, pos_sel _ h1 g1 g2, inverse q hq1 hq2]

/-- FP undoes IP (R147). -/
theorem sel_fp_sel_ip (b : Block) : sel 64 fp (sel 64 ip b) = b :=
  sel_sel_of_inverse ip_length fp_length fp_range (fun q h1 h2 => (ip_fp_tables_inverse q (by omega) h1).2) b

/-- IP undoes FP (R147). -/
theorem sel_ip_sel_fp (b : Block) : sel 64 ip (sel 64 fp b) = b :=
  sel_sel_of_inverse fp_length ip_length ip_range (fun q h1 h2 => (ip_fp_tables_inverse q (by omega) h1).1) b

/-- Settles O21: the tables by evaluation, the functions by positions (`sel_sel_of_inverse`). -/
theorem permutationsAreMutualInverses : Obligations.PermutationsAreMutualInverses :=
  ⟨fun q h1 h2 => ip_fp_tables_inverse q (by omega) h1, fun b => ⟨sel_fp_sel_ip b, sel_ip_sel_fp b⟩⟩

@[simp] theorem initialPerm_finalPerm (l r : Half) : initialPerm (finalPerm l r) = l ++ r := sel_ip_sel_fp _

@[simp] theorem finalPerm_initialPerm (block : Block) :
    finalPerm (hi32 (initialPerm block)) (lo32 (initialPerm block)) = block := by
  rw [finalPerm, hi32_append_lo32]
  exact sel_fp_sel_ip block

/-! ## The FIPS 46-3 recurrence (R156) -/

/-- One step of the recurrence, with the subkey of R142. -/
theorem fipsHalves_succ (k : Vector Subkey 16) (dir : Direction) (l r : Half) {n : Nat} (h : n < 16) :
    fipsHalves k dir l r (n + 1) =
      ((fipsHalves k dir l r n).2,
        newLeft (roundKey k dir n) (fipsHalves k dir l r n).1 (fipsHalves k dir l r n).2) := by
  cases dir with
  | encrypt => rw [newLeft, BitVec.xor_comm]; rfl
  | decrypt =>
    have same_word : k[Fin.ofNat 16 (15 - n)] = roundKey k .decrypt n := by
      rw [roundKey_decrypt k h, Fin.getElem_fin]
      congr 1
      exact Nat.mod_eq_of_lt (by omega)
    rw [newLeft, BitVec.xor_comm, ← same_word]
    rfl

/-- Before the last round the source's halves are those of the recurrence. -/
theorem blockHalves_eq_fips (k : Vector Subkey 16) (dir : Direction) (l r : Half) {n : Nat} (h : n ≤ 15) :
    blockHalves k dir l r n = fipsHalves k dir l r n := by
  induction n with
  | zero => rfl
  | succ n ih =>
    rw [blockHalves_succ, roundHalves_of_lt _ _ _ (by omega), ih (by omega), fipsHalves_succ k dir l r (by omega)]

/-- The last round does not swap, so it leaves `(R16, L16)`. -/
theorem blockHalves_sixteen (k : Vector Subkey 16) (dir : Direction) (l r : Half) :
    blockHalves k dir l r 16 = (fipsHalves k dir l r 16).swap := by
  have last_round : blockHalves k dir l r 16 = _ := blockHalves_succ k dir l r 15
  have last_step : fipsHalves k dir l r 16 = _ := fipsHalves_succ k dir l r (n := 15) (by decide)
  rw [last_round, roundHalves_last, blockHalves_eq_fips k dir l r le_rfl, last_step, Prod.swap]

/-- The halves of the recurrence on `block` after its sixteen steps: `(L16, R16)`. -/
def fipsEnd (k : Vector Subkey 16) (block : Block) (dir : Direction) : Half × Half :=
  fipsHalves k dir (hi32 (initialPerm block)) (lo32 (initialPerm block)) 16

theorem finalHalves_eq_fips (k : Vector Subkey 16) (block : Block) (dir : Direction) :
    finalHalves k block dir = (fipsEnd k block dir).swap := by
  rw [finalHalves_eq, blockHalves_sixteen, fipsEnd]

theorem transform_eq_fips (k : Vector Subkey 16) (block : Block) (dir : Direction) :
    transform k block dir = finalPerm (fipsEnd k block dir).2 (fipsEnd k block dir).1 := by
  rw [transform_eq, finalHalves_eq_fips, Prod.fst_swap, Prod.snd_swap]

/-- Settles O25, by induction on the rounds (`blockHalves_eq_fips`) and the last one apart (`blockHalves_sixteen`). -/
theorem transformIsFipsRecurrence : Obligations.TransformIsFipsRecurrence :=
  ⟨fun k dir l r => ⟨fun _ => blockHalves_eq_fips k dir l r, blockHalves_sixteen k dir l r⟩, transform_eq_fips⟩

/-! ## Each direction undoes the other (R148) -/

/-- The other direction. -/
def Direction.flip : Direction → Direction
  | .encrypt => .decrypt
  | .decrypt => .encrypt

/-- The other direction reads the subkeys in reverse order (R142). -/
theorem roundKey_flip (k : Vector Subkey 16) (dir : Direction) {n : Nat} (h : n < 16) :
    roundKey k dir.flip n = roundKey k dir (15 - n) := by
  cases dir with
  | encrypt => exact (roundKey_decrypt k h).trans (roundKey_encrypt k (by omega)).symm
  | decrypt =>
    have reversed_twice : k[15 - (15 - n)] = k[n] := by congr 1; omega
    exact (roundKey_encrypt k h).trans (reversed_twice.symm.trans (roundKey_decrypt k (by omega)).symm)

/-- The recurrence in the other direction, from the swapped end, goes back over the halves it came through, swapped. -/
theorem fipsHalves_flip (k : Vector Subkey 16) (dir : Direction) (l r : Half) {n : Nat} (h : n ≤ 16) :
    fipsHalves k dir.flip (fipsHalves k dir l r 16).2 (fipsHalves k dir l r 16).1 n =
      (fipsHalves k dir l r (16 - n)).swap := by
  induction n with
  | zero => rfl
  | succ n ih =>
    have undone : fipsHalves k dir l r (16 - n) = _ :=
      (congrArg _ (show 16 - n = 15 - n + 1 by omega)).trans (fipsHalves_succ k dir l r (by omega))
    have before : 16 - (n + 1) = 15 - n := by omega
    rw [fipsHalves_succ _ _ _ _ (by omega), ih (by omega), undone, roundKey_flip k dir (by omega), before]
    simp [Prod.swap]

/-- The halves that enter FP are the halves that IP gives back (R147). -/
theorem finalHalves_eq_initialPerm (k : Vector Subkey 16) (block : Block) (dir : Direction) :
    finalHalves k block dir =
      (hi32 (initialPerm (transform k block dir)), lo32 (initialPerm (transform k block dir))) := by
  rw [transform_eq, initialPerm_finalPerm, hi32_append, lo32_append]

/-- Each direction undoes the other. -/
theorem transform_flip (k : Vector Subkey 16) (block : Block) (dir : Direction) :
    transform k (transform k block dir) dir.flip = block := by
  have back_to_start : fipsEnd k (transform k block dir) dir.flip =
      (lo32 (initialPerm block), hi32 (initialPerm block)) := by
    rw [fipsEnd, transform_eq_fips, initialPerm_finalPerm, hi32_append, lo32_append]
    exact fipsHalves_flip k dir _ _ le_rfl
  rw [transform_eq_fips, back_to_start, finalPerm_initialPerm]

/-- Settles O22: the recurrence retraces itself (`fipsHalves_flip`), and IP undoes FP between the two transforms. -/
theorem transformRoundTrip : Obligations.TransformRoundTrip :=
  fun k block => ⟨transform_flip k block .encrypt, transform_flip k block .decrypt⟩

/-- Settles O26: encryption by evaluation; decryption because it undoes encryption (`transform_flip`). -/
theorem knownAnswerVector : Obligations.KnownAnswerVector := by
  have encrypted : transform (schedule 0x133457799BBCDFF1) 0x0123456789ABCDEF .encrypt = 0x85E813540F0AB405 := by
    decide +kernel
  have decrypted := transform_flip (schedule 0x133457799BBCDFF1) 0x0123456789ABCDEF .encrypt
  rw [encrypted] at decrypted
  exact ⟨encrypted, decrypted⟩

/-! ## A schedule that reads the same both ways (R157 b) -/

/-- The rounds read the schedule and the direction through the round subkeys only. -/
theorem blockHalves_congr {k k' : Vector Subkey 16} {dir dir' : Direction}
    (h : ∀ n, roundKey k dir n = roundKey k' dir' n) (l r : Half) (n : Nat) :
    blockHalves k dir l r n = blockHalves k' dir' l r n := by
  induction n with
  | zero => rfl
  | succ n ih => rw [blockHalves_succ, blockHalves_succ, ih, h]

theorem transform_congr {k k' : Vector Subkey 16} {dir dir' : Direction}
    (h : ∀ n, roundKey k dir n = roundKey k' dir' n) (block : Block) :
    transform k block dir = transform k' block dir' := by
  rw [transform_eq, transform_eq, finalHalves_eq, finalHalves_eq, blockHalves_congr h]

/-- Settles O24: both directions use the same subkey in each round, so undoing is doing again. -/
theorem palindromicScheduleIsSelfInverse : Obligations.PalindromicScheduleIsSelfInverse := by
  intro k palindromic block
  have same_subkey (n : Nat) : roundKey k .encrypt n = roundKey k .decrypt n := palindromic (Fin.ofNat 16 n)
  have one_function (b : Block) : transform k b .encrypt = transform k b .decrypt :=
    transform_congr same_subkey b
  exact ⟨one_function block, (one_function _).trans (transform_flip k block .encrypt)⟩

/-! ## Complementation (R157 a) -/

/-- `Schedule(~k)[n] = ~Schedule(k)[n]`, by linearity and the all-one key (R112). -/
theorem schedule_not (key : KeyValue) (i : StoreIndex) : (schedule (~~~key))[i] = ~~~(schedule key)[i] := by
  have all_ones := schedule_allOnes i
  rw [Fin.getElem_fin, schedule_getElem] at all_ones ⊢
  rw [← BitVec.xor_allOnes, roundSubkey_xor _ _ i.isLt, all_ones, BitVec.xor_allOnes, Fin.getElem_fin,
    schedule_getElem]

/-- `Round(~R, ~k) = Round(R, k)`: the two complements cancel in the key mixing (R173, R186). -/
theorem roundFunction_not_not (half : Half) (subkey : Subkey) :
    roundFunction (~~~half) (~~~subkey) = roundFunction half subkey := by
  have cancel : keyMix (~~~half) (~~~subkey) = keyMix half subkey := by
    rw [keyMix, expand_not, ← BitVec.not_xor_left, ← BitVec.not_xor_right, BitVec.not_not, keyMix]
  rw [roundFunction, cancel, roundFunction]

theorem newLeft_not (subkey : Subkey) (l r : Half) :
    newLeft (~~~subkey) (~~~l) (~~~r) = ~~~(newLeft subkey l r) := by
  rw [newLeft, roundFunction_not_not, newLeft, BitVec.not_xor_right]

theorem roundHalves_not (subkey : Subkey) (i : Nat) (l r : Half) :
    roundHalves (~~~subkey) i (~~~l) (~~~r) =
      (~~~(roundHalves subkey i l r).1, ~~~(roundHalves subkey i l r).2) := by
  unfold roundHalves
  rw [newLeft_not]
  split <;> rfl

/-- Complementing both halves and all round subkeys complements the halves before every round. -/
theorem blockHalves_not {k k' : Vector Subkey 16} {dir : Direction}
    (h : ∀ n, roundKey k' dir n = ~~~(roundKey k dir n)) (l r : Half) (n : Nat) :
    blockHalves k' dir (~~~l) (~~~r) n = (~~~(blockHalves k dir l r n).1, ~~~(blockHalves k dir l r n).2) := by
  induction n with
  | zero => rfl
  | succ n ih => rw [blockHalves_succ, ih, h, roundHalves_not, blockHalves_succ]

theorem initialPerm_not (block : Block) : initialPerm (~~~block) = ~~~(initialPerm block) :=
  sel_not _ ip_length ip_range

theorem finalPerm_not (l r : Half) : finalPerm (~~~l) (~~~r) = ~~~(finalPerm l r) := by
  rw [finalPerm, append_not]
  exact sel_not _ fp_length fp_range

/-- Settles O23: complements pass through the schedule, both permutations and every round. -/
theorem complementationLaw : Obligations.ComplementationLaw := by
  intro key block dir
  have subkeys (n : Nat) : roundKey (schedule (~~~key)) dir n = ~~~(roundKey (schedule key) dir n) :=
    schedule_not key _
  rw [transform_eq, finalHalves_eq, initialPerm_not, hi32_not, lo32_not, blockHalves_not subkeys, finalPerm_not,
    transform_eq, finalHalves_eq]

end Sys2Proof.Machine
end

section
/-! Settles NOP, ENCRYPT and DECRYPT (spec/41_block_transform.md R150 to R155): the whole commands, their micro-steps,
and that the edges of a block command at any pace reach what the whole command reaches. The two block commands differ in
the direction only, so what they share is said once, of `blockCommand`. -/

namespace Sys2Proof.Machine

/-! ## The whole commands -/

/-- Settles O27: NOP is ready whenever BUSY = 0, and its whole effect is that an edge passes. -/
theorem nopCompletes : Obligations.NopCompletes := by
  intro data s hb
  have code_without_sv : (0b00 : OpCode).getLsbD 1 = false := by decide
  have ready : cmdReady (Instr.nop data).op s = true := (cmdReady_iff _ _).2 ⟨hb, .inl code_without_sv⟩
  exact exec_accepted ready

/-- The block command of a direction (R150, R151). -/
def blockCommand : Direction → Block → Instr
  | .encrypt, block => .encrypt block
  | .decrypt, block => .decrypt block

/-- A block command is ready with BUSY = 0 and SV = 1 (R78). -/
theorem cmdReady_blockCommand (dir : Direction) (block : Block) {s : State} (hb : s.busy = false) (hv : s.sv = true) :
    cmdReady (blockCommand dir block).op s = true := (cmdReady_iff _ _).2 ⟨hb, .inr hv⟩

/-- What a block command answers with BUSY = 0 and SV = 1 (R150, R151). -/
theorem exec_blockCommand (dir : Direction) (block : Block) {s : State} (hb : s.busy = false) (hv : s.sv = true) :
    exec (blockCommand dir block) s = .next (passEdges (paceLatency s.blockPace) (runBlock dir block s)) := by
  rw [exec_accepted (cmdReady_blockCommand dir block hb hv)]
  cases dir <;> rfl

/-- The same register by register: L and R hold the halves of IP of the result, which entered FP (R147). -/
theorem exec_blockCommand_completes (dir : Direction) (block : Block) {s : State} (hb : s.busy = false)
    (hv : s.sv = true) :
    exec (blockCommand dir block) s = .next { s with
      dout := transform s.k block dir, dv := true, busy := false, dir := dir
      l := hi32 (initialPerm (transform s.k block dir)), r := lo32 (initialPerm (transform s.k block dir))
      rnd := 0, ph := .idle, clock := s.clock + paceLatency s.blockPace } := by
  rw [exec_blockCommand dir block hb hv, runBlock_eq, finalHalves_eq_initialPerm]
  rfl

/-- Settles O29: the halves that entered FP are the halves of IP of the result (`finalHalves_eq_initialPerm`). -/
theorem encryptCompletes : Obligations.EncryptCompletes :=
  fun block _ hb hv => exec_blockCommand_completes .encrypt block hb hv

/-- Settles O30, as O29 with the other direction. -/
theorem decryptCompletes : Obligations.DecryptCompletes :=
  fun block _ hb hv => exec_blockCommand_completes .decrypt block hb hv

/-! ## Micro-steps -/

/-- The edge that accepts a block command: BTL, then the rounds that are due (R152, R241). -/
theorem acceptEdge_blockCommand (dir : Direction) (block : Block) (s : State) :
    acceptEdge (blockCommand dir block) s = advance (startPace (btl dir block s)) := by
  cases dir <;> rfl

/-- How many micro-steps bring a block command with `n` rounds done to where its pace has it (R241). -/
theorem microStepsDue_bt {s : State} {n : Nat} (hp : s.ph = .bt) (hr : s.rnd.toNat = n) (hn : n ≤ 15) :
    microStepsDue s = roundsBy s.blockPace s.age - n := by
  simp only [microStepsDue, hp, hr]
  rw [if_pos hn]

/-- Settles O40: after BTL no round is done, so all that the pace has done by edge 0 are due. -/
theorem blockAcceptingEdge : Obligations.BlockAcceptingEdge := by
  intro s p rest i dir block hi hh hp hb hv
  have command : i = blockCommand dir block := by
    rcases hi with ⟨rfl, rfl⟩ | ⟨rfl, rfl⟩ <;> rfl
  subst command
  have due := microStepsDue_bt (s := startPace (btl dir block { s with clock := s.clock + 1, host := rest })) (n := 0)
    rfl rfl (Nat.zero_le _)
  rw [step_accepts hh hp (cmdReady_blockCommand dir block hb hv), acceptEdge_blockCommand, advance, due]
  rfl

/-- The subkey of round i: word i for Encrypt, word 15 - i for Decrypt (R142). -/
theorem roundKey_val (k : Vector Subkey 16) (dir : Direction) (i : StoreIndex) :
    roundKey k dir i.val = if dir = .encrypt then k[i] else k[i.rev] := by
  have index : Fin.ofNat 16 i.val = i := Fin.ext (Nat.mod_eq_of_lt i.isLt)
  simp only [roundKey, index]
  cases dir with
  | encrypt => rfl
  | decrypt => rfl

/-- Micro-step BTR(i), field by field (R153, R154). -/
theorem microStep_bt_eq {s : State} {i : StoreIndex} (hp : s.ph = .bt) (hr : s.rnd.toNat = i.val) :
    microStep s =
      if i.val < 15 then { s with l := s.r, r := newLeft (roundKey s.k s.dir i.val) s.l s.r, rnd := s.rnd + 1 }
      else { s with
        l := newLeft (roundKey s.k s.dir i.val) s.l s.r
        dout := finalPerm (newLeft (roundKey s.k s.dir i.val) s.l s.r) s.r
        dv := true, busy := false, ph := .idle, rnd := 0 } := by
  have hi := i.isLt
  rw [microStep_bt hp (by omega)]
  split
  · next not_last =>
    have next_round : rndOf (i.val + 1) = s.rnd + 1 := by
      rw [← hr, rndOf, BitVec.ofNat_add, BitVec.ofNat_toNat, BitVec.setWidth_eq]
      rfl
    rw [btr_of_lt s (by omega), hr, next_round, ← hp]
  · next last =>
    have round_fifteen : i.val = 15 := by omega
    rw [btr_last s (by omega), round_fifteen]

/-- Settles O41: the subkey read is `roundKey_val`'s word, and what is due is `microStepsDue_bt`. -/
theorem blockMicroStep : Obligations.BlockMicroStep := by
  refine ⟨fun s i n hp hr hn => ?_, fun s p rest i hh hrst hb hp hr => ?_⟩
  · have new_half : newLeft (roundKey s.k s.dir i.val) s.l s.r = n := by rw [newLeft, roundKey_val, hn]
    rw [microStep_bt_eq hp hr, new_half]
    rfl
  · have due := microStepsDue_bt (s := tick (passEdges 1 { s with host := rest })) hp hr (Nat.le_of_lt_succ i.isLt)
    have ticked : tick (passEdges 1 { s with host := rest }) =
        { s with age := s.age + 1, clock := s.clock + 1, host := rest } :=
      tick_of_not_idle (s := passEdges 1 { s with host := rest }) (by simp [hp])
    rw [step_edge_busy hh hrst hb, quietEdge, advance, due, ticked]

/-! ## The edges of a whole block command -/

/-- The last edge of a block command in progress (R154, R241). -/
theorem quietEdge_blockRunOf_last (dir : Direction) (block : Block) {s : State} (h : s.age + 1 = s.blockPace.last) :
    quietEdge (blockRunOf dir block s (roundsBy s.blockPace s.age)) = runBlock dir block (nextEdge s) := by
  have ticked : tick (passEdges 1 (blockRunOf dir block s (roundsBy s.blockPace s.age))) =
      blockRunOf dir block (nextEdge s) (roundsBy s.blockPace s.age) := rfl
  have advanced := advance_blockRun dir block (nextEdge s) (n := roundsBy s.blockPace s.age)
    (roundsBy_of_lt (by omega)) (roundsBy_succ_ge _ _)
  rw [quietEdge, ticked]
  exact advanced.trans (if_pos h.ge)

/-- All edges of a block command, however the rounds are spread over them (R152 to R154, R241). -/
theorem runSteps_blockCommand_all {s : State} {p : Pins} {ps : List Pins} {rest : List HostEvent} {dir : Direction}
    {block : Block} (hp : Presents p (blockCommand dir block)) (hc : cmdReady (blockCommand dir block).op s = true)
    (hr : NoReset ps) (hh : s.host = .edge p :: edges ps ++ rest) (hl : ps.length = s.blockPace.last) :
    runSteps (ps.length + 1) s =
      .next (runBlock dir block (atPaceEdge ps.length (s.clock + 1 + ps.length) rest s)) := by
  have accepts (u : State) : acceptEdge (blockCommand dir block) u = acceptedBlock dir block u :=
    (acceptEdge_blockCommand dir block u).trans (advance_btl dir block u)
  rcases List.eq_nil_or_concat ps with rfl | ⟨before, q, rfl⟩
  · have only_edge : step s = .next (runBlock dir block (atPaceEdge 0 (s.clock + 1) rest s)) := by
      rw [step_accepts hh hp hc, accepts]
      exact congrArg _ (if_pos hl.symm)
    rw [runSteps_succ only_edge]
    rfl
  · have hlen : before.length + 1 = s.blockPace.last := by simpa using hl
    have hbefore : s.host = .edge p :: edges before ++ (.edge q :: rest) := by simpa [edges] using hh
    have hr_before : NoReset before := fun a ha => hr a (by simp [ha])
    have hq : q.rst = false := hr q (by simp)
    have in_progress := runSteps_block accepts hp hc hr_before hbefore (by omega)
    have last_edge := quietEdge_blockRunOf_last dir block
      (s := atPaceEdge before.length (s.clock + 1 + before.length) rest s) hlen
    have last_step : step (blockAfter dir block s before.length (.edge q :: rest)) = _ := step_edge_busy rfl hq rfl
    rw [List.concat_eq_append, List.length_append, List.length_singleton, runSteps_add in_progress,
      runSteps_succ last_step]
    exact congrArg _ last_edge

/-- Settles O47, by `runSteps_blockCommand_all` for the edges and `exec_blockCommand` for the whole command. -/
theorem blockLevelsAgree : Obligations.BlockLevelsAgree := by
  intro s p ps rest i block hi hb hv hp hr hl hh
  obtain ⟨dir, rfl⟩ : ∃ dir, i = blockCommand dir block := by
    rcases hi with rfl | rfl
    · exact ⟨.encrypt, rfl⟩
    · exact ⟨.decrypt, rfl⟩
  have by_edges := runSteps_blockCommand_all hp (cmdReady_blockCommand dir block hb hv) hr hh (Nat.succ.inj hl)
  rw [← hl]
  refine ⟨_, _, by_edges, exec_blockCommand dir block hb hv, rfl, rfl, ?_⟩
  show s.clock + 1 + ps.length = s.clock + paceLatency s.blockPace
  omega

end Sys2Proof.Machine
end

section
/-! Settles the round function (spec/42_round_function.md R171 to R187). Expansion and permutation are read by positions
(`pos_expand`, `pos_permute`), the substitution by its eight outputs (`nibble_substitute`), and what the rules say of the
printed tables is evaluated on the tables alone. -/

namespace Sys2Proof.Machine

/-! ## Expansion, key mixing and permutation -/

/-- The table E: group g takes the four positions 4g+1..4g+4 and one neighbour on each side, modulo 32 (R172). -/
theorem expansion_entry : ∀ g < 8, ∀ t < 7, 1 ≤ t → expansion.getD (6 * g + t - 1) 0 = (4 * g + t + 30) % 32 + 1 := by
  decide

/-- Settles O14: E by positions, with the entry of the table. -/
theorem expansionTakesNeighbours : Obligations.ExpansionTakesNeighbours := by
  intro half g t hg h1 h6
  rw [pos_expand half (by omega) (by omega), expansion_entry g (by omega) t (by omega) h1]

/-- Settles O15: exclusive or works position by position (`pos_xor`). -/
theorem keyMixingByPosition : Obligations.KeyMixingByPosition := by
  intro half subkey q h1 h48
  rw [keyMix, pos_xor, pos_expand half h1 h48]

/-- Settles O19: the round function ends in P, read by positions. -/
theorem roundResultIsPermutedSubstitution : Obligations.RoundResultIsPermutedSubstitution := by
  intro half subkey q h1 h32
  rw [roundFunction, pos_permute _ h1 h32]

/-- Settles O20: the complements cancel in the key mixing, as the complementation law needs it. -/
theorem roundIgnoresDoubleComplement : Obligations.RoundIgnoresDoubleComplement := roundFunction_not_not

/-! ## Substitution -/

/-- Bits [31-4j : 28-4j] of the eight outputs side by side are output j (R184): the outputs after it stand below the
slice and those before it above. -/
theorem nibble_substitute (x : Subkey) {j : Nat} (hj : j ≤ 7) : nibble (substitute x) j = sbox j (group x j) := by
  rw [nibble, substitute]
  interval_cases j <;>
    simp only [extract_append_high, extract_append_low, Nat.reduceMul, Nat.reduceSub, Nat.reduceLeDiff,
      BitVec.extractLsb'_eq_self]

/-- Every entry of a flat table fits 4 bits (R184). -/
theorem sFlat_entry_lt : ∀ j < 8, ∀ n < 64, (sFlat.getD j []).getD n 0 < 16 := by
  decide +kernel

/-- The 4-bit output is the table's entry, with nothing cut off (R184). -/
theorem toNat_sbox {j : Nat} (hj : j ≤ 7) (b : Group) : (sbox j b).toNat = (sFlat.getD j []).getD b.toNat 0 := by
  rw [sbox, BitVec.toNat_ofNat, Nat.mod_eq_of_lt (sFlat_entry_lt j (by omega) b.toNat b.isLt)]

/-- Settles O16: the slice of the concatenation, and a table without an entry above 15. -/
theorem groupFeedsItsOwnTable : Obligations.GroupFeedsItsOwnTable :=
  fun x j hj => ⟨nibble_substitute x hj, toNat_sbox hj (group x j)⟩

/-! ## The two layouts of the substitution tables -/

/-- The row `B[5] ‖ B[0]` as a number (R175). -/
theorem toNat_sboxRow (b : Group) : (sboxRow b).toNat = 2 * (b.toNat / 32) + b.toNat % 2 := by
  revert b
  decide

/-- The column `B[4:1]` as a number (R175). -/
theorem toNat_sboxCol (b : Group) : (sboxCol b).toNat = b.toNat / 2 % 16 := by
  rw [sboxCol, BitVec.extractLsb'_toNat, Nat.shiftRight_eq_div_pow, pow_one]

/-- The tables in the two layouts, entry by entry (R175). -/
theorem sFlat_entry_eq_sStd_entry : ∀ j < 8, ∀ n < 64,
    (sFlat.getD j []).getD n 0 = ((sStd.getD j []).getD (2 * (n / 32) + n % 2) []).getD (n / 2 % 16) 0 := by
  decide +kernel

/-- Settles O17: row and column as numbers, then the tables entry by entry. -/
theorem substitutionLayoutsAgree : Obligations.SubstitutionLayoutsAgree := by
  intro j b hj
  rw [sbox, sboxStandard, toNat_sboxRow, toNat_sboxCol, sFlat_entry_eq_sStd_entry j (by omega) b.toNat b.isLt]

theorem sStd_rows_are_permutations :
    ∀ t ∈ sStd, t.length = 4 ∧ ∀ row ∈ t, row.length = 16 ∧ ∀ v, v < 16 → row.count v = 1 := by
  decide +kernel

theorem sFlat_tables_are_balanced :
    ∀ t ∈ sFlat, t.length = 64 ∧ t.sum = 480 ∧ ∀ v, v < 16 → t.count v = 4 := by
  decide +kernel

/-- Settles O18, by evaluation of the printed tables. -/
theorem substitutionTablesAreBalanced : Obligations.SubstitutionTablesAreBalanced :=
  ⟨sStd_rows_are_permutations, sFlat_tables_are_balanced, rfl, rfl⟩

end Sys2Proof.Machine
end

section
/-! Settles what the hardware does where other machines take an exception (spec/60_exceptions.md R200 to R205, R211): no
step stops, a command that is not ready waits, reset wins over everything, and the blocks of a system share nothing. -/

namespace Sys2Proof.Machine

/-! ## A command that is not ready -/

/-- Without a valid schedule no block command is ready (R78, R203). -/
theorem cmdReady_of_not_sv {op : OpCode} {s : State} (ho : op.getLsbD 1 = true) (hv : s.sv = false) :
    cmdReady op s = false := by
  simp [cmdReady, ho, hv]

/-- A presented command that is not ready stays presented while an edge passes (R77, R203). -/
theorem step_presented_waits {s : State} {i : Instr} {rest : List HostEvent} (hh : s.host = .command (encode i) :: rest)
    (hc : cmdReady i.op s = false) : step s = .next (quietEdge s) := by
  rw [step_presented hh, decode_encode, if_neg (by simp [hc]), exec_waits hc]

/-- An idle block to which a command is presented that is not ready stays as it is for ever (R203). -/
theorem runSteps_presented_waits {s : State} {i : Instr} {rest : List HostEvent}
    (hh : s.host = .command (encode i) :: rest) (hc : cmdReady i.op s = false) (hp : s.ph = .idle) (n : Nat) :
    runSteps n s = .next { s with clock := s.clock + n } := by
  induction n generalizing s with
  | zero => rfl
  | succ n ih =>
    have one_edge : step s = .next (passEdges 1 s) := by rw [step_presented_waits hh hc, quietEdge_idle hp]
    rw [runSteps_succ one_edge, ih (s := passEdges 1 s) hh hc hp, passEdges_clock, Nat.add_right_comm, Nat.add_assoc]
    rfl

/-- Settles O32: without a valid schedule neither block command is ready, so each waits. -/
theorem blockCommandWaitsForKey : Obligations.BlockCommandWaitsForKey := by
  intro block s hv
  have encrypt_waits : cmdReady (Instr.encrypt block).op s = false :=
    cmdReady_of_not_sv (show (0b10 : OpCode).getLsbD 1 = true by decide) hv
  have decrypt_waits : cmdReady (Instr.decrypt block).op s = false :=
    cmdReady_of_not_sv (show (0b11 : OpCode).getLsbD 1 = true by decide) hv
  refine ⟨⟨encrypt_waits, exec_waits encrypt_waits⟩, ⟨decrypt_waits, exec_waits decrypt_waits⟩, ?_⟩
  rintro hp i rest (rfl | rfl) hh
  · exact runSteps_presented_waits hh encrypt_waits hp
  · exact runSteps_presented_waits hh decrypt_waits hp

/-! ## Coincidences at one edge -/

/-- Reset wins over whatever else the edge would do (R202, R220). -/
theorem step_edge_reset {s : State} {p : Pins} {rest : List HostEvent} (hh : s.host = .edge p :: rest)
    (hr : p.rst = true) : step s = .next (resetStep { s with host := rest, clock := s.clock + 1 }) := by
  rw [step_edge hh, clockEdge_reset _ hr]
  rfl

/-- Settles O37: a reset edge, an edge of a busy block, and a whole command that waits for one. -/
theorem coincidencesAtOneEdge : Obligations.CoincidencesAtOneEdge := by
  refine ⟨fun s p rest hh => ⟨step_edge_reset hh, step_edge_busy hh⟩, fun i s hb => ?_⟩
  exact ⟨cmdReady_busy hb, exec_waits (cmdReady_busy hb)⟩

/-! ## No step stops -/

/-- A run never stops (R200, R205). -/
theorem runSteps_next (n : Nat) (s : State) : ∃ t, runSteps n s = .next t := by
  induction n generalizing s with
  | zero => exact ⟨s, rfl⟩
  | succ n ih =>
    obtain ⟨u, hu⟩ := step_next s
    rw [runSteps_succ hu]
    exact ih u

/-- A reset step makes the invariant true, whatever the block held (R37, R220). -/
theorem step_resets_inv {s : State} (h : resets s) : ∃ t, step s = .next t ∧ Inv t := by
  obtain ⟨p, hn, hr⟩ := h
  obtain ⟨rest, hh⟩ := List.head?_eq_some_iff.1 hn
  exact ⟨_, step_edge_reset hh hr, inv_resetStep _⟩

/-- Settles O50: the reset step makes the invariant true and every later step keeps it. -/
theorem noStepStops : Obligations.NoStepStops := by
  refine ⟨step_next, runSteps_next, fun n s h => ?_⟩
  obtain ⟨u, hu, inv_u⟩ := step_resets_inv h
  obtain ⟨t, ht⟩ := runSteps_next n u
  exact ⟨t, by rw [runSteps_succ hu, ht], runSteps_keeps stepKeepsInvariant inv_u ht⟩

/-! ## The blocks of a system -/

/-- The step of a block replaces that block's state by the state after its own step (R211). -/
theorem stepInstance_of_step {n : Nat} {j : Fin n} {system : Vector State n} {t : State} (h : step system[j] = .next t) :
    stepInstance j system = .next (system.set j t) := by
  rw [stepInstance, h]

/-- The step of a block is its own step (R211). -/
theorem step_of_stepInstance {n : Nat} {j : Fin n} {system after : Vector State n}
    (h : stepInstance j system = .next after) : ∃ t, step system[j] = .next t ∧ after = system.set j t := by
  obtain ⟨t, ht⟩ := step_next system[j]
  rw [stepInstance_of_step ht] at h
  exact ⟨t, ht, (Host.Outcome.next.inj h).symm⟩

/-- Blocks are read and replaced independently (R211). -/
theorem getElem_set_of_ne {n : Nat} (system : Vector State n) {i j : Fin n} (t : State) (h : i ≠ j) :
    (system.set j t)[i] = system[i] :=
  Vector.getElem_set_ne j.isLt i.isLt fun e => h (Fin.ext e.symm)

/-- Settles O60: the step of block `j` reads and replaces component `j` alone, and replacements of two components
commute. -/
theorem instancesShareNothing : Obligations.InstancesShareNothing := by
  intro n system other after j h
  obtain ⟨t, ht, rfl⟩ := step_of_stepInstance h
  refine ⟨fun i hij => getElem_set_of_ne system t hij, fun same => ?_, fun i after' hij h' => ?_⟩
  · refine ⟨other.set j t, stepInstance_of_step (same ▸ ht), ?_⟩
    exact (Vector.getElem_set_self j.isLt).trans (Vector.getElem_set_self j.isLt).symm
  · obtain ⟨u, hu, rfl⟩ := step_of_stepInstance h'
    have i_after_j : stepInstance i (system.set j t) = .next ((system.set j t).set i u) :=
      stepInstance_of_step ((getElem_set_of_ne system t hij).symm ▸ hu)
    have j_after_i : stepInstance j (system.set i u) = .next ((system.set i u).set j t) :=
      stepInstance_of_step ((getElem_set_of_ne system u hij.symm).symm ▸ ht)
    have commute : (system.set i u).set j t = (system.set j t).set i u :=
      Vector.set_comm u t fun e => hij (Fin.ext e)
    exact ⟨_, i_after_j, commute ▸ j_after_i⟩

end Sys2Proof.Machine
end

section
/-! Settles reset and timing (spec/70_reset_and_hazards.md R220 to R223, R240 to R242): what a reset step writes, what a
reset in mid-command leaves, and that a command's latency depends on its kind only. -/

namespace Sys2Proof.Machine

/-! ## Latency -/

/-- The latency of a command is read off its operation code (R6, R242). -/
theorem latency_eq_of_op (i : Instr) (s : State) :
    latency i s =
      if i.op.getLsbD 1 then paceLatency s.blockPace else if i.op.getLsbD 0 then paceLatency s.keyPace else 1 := by
  cases i <;> simp [latency, Instr.op]

/-- Commands of one kind take the same number of edges; the two block commands are of one kind (R240). -/
theorem latency_of_sameKind {i j : Instr} (h : i.op = j.op ∨ (i.op.getLsbD 1 = true ∧ j.op.getLsbD 1 = true))
    (s : State) : latency i s = latency j s := by
  rw [latency_eq_of_op, latency_eq_of_op]
  rcases h with same_code | ⟨hi, hj⟩
  · rw [same_code]
  · rw [if_pos hi, if_pos hj]

/-- Every command takes at least one edge (R6). -/
theorem latency_pos (i : Instr) (s : State) : 0 < latency i s := by
  cases i <;> exact Nat.succ_pos _

/-- An accepted command takes the edges of its latency. -/
theorem clock_of_exec_ready {i : Instr} {s t : State} (hc : cmdReady i.op s = true) (ht : exec i s = .next t) :
    t.clock = s.clock + latency i s := by
  have transact_clock : (transact i s).clock = s.clock := by cases i <;> rfl
  rw [eq_of_exec_ready hc ht, passEdges_clock, transact_clock]

/-! ## No step changes the paces -/

theorem sameImplementation_trans {s t u : State} (h : SameImplementation s t) (h' : SameImplementation t u) :
    SameImplementation s u :=
  ⟨h.1.trans h'.1, h.2.trans h'.2⟩

theorem sameImplementation_ksr (s : State) : SameImplementation s (ksr s) := by
  dsimp only [ksr]
  split <;> exact ⟨rfl, rfl⟩

theorem sameImplementation_btr (s : State) : SameImplementation s (btr s) := by
  dsimp only [btr]
  split <;> exact ⟨rfl, rfl⟩

/-- Not even the micro-step for which there is no rule changes a pace. -/
theorem sameImplementation_microStep (s : State) : SameImplementation s (microStep s) := by
  unfold microStep
  split
  · exact ⟨rfl, rfl⟩
  · split
    · exact sameImplementation_ksr s
    · exact ⟨rfl, rfl⟩
  · split
    · exact sameImplementation_btr s
    · exact ⟨rfl, rfl⟩
  · exact ⟨rfl, rfl⟩

theorem sameImplementation_advance {s t : State} (h : SameImplementation s t) : SameImplementation s (advance t) :=
  Function.Iterate.rec (SameImplementation s) h
    (fun u hu => sameImplementation_trans hu (sameImplementation_microStep u)) (microStepsDue t)

theorem sameImplementation_acceptEdge (i : Instr) (s : State) : SameImplementation s (acceptEdge i s) := by
  cases i with
  | nop => exact ⟨rfl, rfl⟩
  | loadkey | encrypt | decrypt => exact sameImplementation_advance ⟨rfl, rfl⟩

theorem sameImplementation_transact (i : Instr) (s : State) : SameImplementation s (transact i s) := by
  cases i <;> exact ⟨rfl, rfl⟩

/-- A step is made in the implementation it starts in (R241). -/
theorem sameImplementation_step {s t : State} (h : step s = .next t) : SameImplementation s t := by
  cases step_effect h with
  | edge hst => exact sameImplementation_advance ⟨rfl, rfl⟩
  | reset => exact ⟨rfl, rfl⟩
  | accept hst i => exact sameImplementation_acceptEdge i { s with clock := s.clock + 1, host := hst }
  | whole cl hst i => exact sameImplementation_transact i s

/-- Settles O34: an accepted command passes the edges of its latency, which its kind and the paces fix. -/
theorem latencyByKindOnly : Obligations.LatencyByKindOnly := by
  refine ⟨fun i j s t u v hsu kind hi hj ht hv => ?_, fun _ _ => sameImplementation_step, rfl,
    fun _ => roundsBy_reference⟩
  have same_latency : latency i s = latency j u :=
    (latency_of_sameKind kind s).trans (latency_of_sameImplementation j hsu)
  have positive := latency_pos i s
  rw [clock_of_exec_ready hi ht, clock_of_exec_ready hj hv]
  omega

/-! ## The reset step -/

/-- Settles O42: the reset step is the record update of R220. -/
theorem resetStepClearsFlagsOnly : Obligations.ResetStepClearsFlagsOnly :=
  fun _ _ _ hh hr => step_edge_reset hh hr

/-- After a reset step a command is ready exactly when its code does not ask for a valid schedule (R78, R223). -/
theorem cmdReady_resetStep (op : OpCode) (s : State) : cmdReady op (resetStep s) = !op.getLsbD 1 :=
  Bool.or_false _

/-- Settles O43, code by code. -/
theorem afterResetOnlyNopAndLoadkey : Obligations.AfterResetOnlyNopAndLoadkey := by
  refine ⟨fun s => ?_, rfl, rfl, rfl, rfl, rfl⟩
  simp only [cmdReady_resetStep]
  decide

/-! ## A reset in mid-command -/

/-- A run that a reset step ends: whatever it has reached keeps all but the flags and the sequencer (R220, R221). -/
theorem runSteps_then_reset {n : Nat} {s u : State} {q : Pins} {rest : List HostEvent}
    (reached : runSteps n s = .next u) (hh : u.host = .edge q :: rest) (hq : q.rst = true) :
    runSteps (n + 1) s = .next (resetStep { u with host := rest, clock := u.clock + 1 }) := by
  rw [runSteps_add reached, runSteps_succ (step_edge_reset hh hq), runSteps_zero]

/-- ENCRYPT and DECRYPT are accepted alike, each in its direction (R150, R151). -/
theorem acceptEdge_of_blockCommand {i : Instr} {block : Block} (hi : i = .encrypt block ∨ i = .decrypt block) :
    ∃ dir, ∀ u, acceptEdge i u = acceptedBlock dir block u := by
  rcases hi with rfl | rfl
  · exact ⟨.encrypt, acceptEdge_encrypt block⟩
  · exact ⟨.decrypt, acceptEdge_decrypt block⟩

/-- Settles O44: the reset step meets the command in the state `keyAfter` or `blockAfter`, whose K and DOUT it keeps. -/
theorem resetAbandonsTheCommand : Obligations.ResetAbandonsTheCommand := by
  intro s p q ps rest i hp hc hr hq hh
  constructor
  · rintro key rfl before_last
    have running := runSteps_loadkey hp hc hr hh (Nat.lt_of_succ_lt_succ before_last)
    exact ⟨_, runSteps_then_reset running rfl hq, rfl, rfl, rfl, rfl, rfl, rfl, storeWithFirst_getElem key s.k _⟩
  · intro block hi before_last
    obtain ⟨dir, accepts⟩ := acceptEdge_of_blockCommand hi
    have running := runSteps_block accepts hp hc hr hh (Nat.lt_of_succ_lt_succ before_last)
    exact ⟨_, runSteps_then_reset running rfl hq, rfl, rfl, rfl, rfl, rfl, rfl, rfl⟩

end Sys2Proof.Machine
end
